-- ==== Sys2Proof/Word.lean ====
section
/-! DEFINITION. The word types of the block: the 8-bit byte of both buffers and of the command code
(00_scope.md R9), and the one-bit and 64-bit widths of its registers and of its host data path. -/

namespace Sys2Proof

/-- One byte; bit 7 is its most significant bit (R9). -/
abbrev Byte := BitVec 8

/-- A one-bit register or wire field. -/
abbrev Bit := BitVec 1

/-- What a host read returns: a register's whole value or one byte, zero-extended to the widest
register (R22, ID_W of R7). -/
abbrev Data := BitVec 64

end Sys2Proof
end

