-- ==== Sys2Proof/Config.lean ====
section
/-! DEFINITION. The block's fixed parameters (00_scope.md R7). The spec leaves no value free, so no
constant here is opaque. -/

namespace Sys2Proof.Config

/-- FIXED_PREFIX_SIZE: header bytes 0 to 3. -/
def fixedPrefixSize : Nat := 4

/-- MIN_HEADER_SIZE = FIXED_PREFIX_SIZE + 3. -/
def minHeaderSize : Nat := fixedPrefixSize + 3

/-- MAX_HEADER_SIZE = 4 + 2·8 + 8. -/
def maxHeaderSize : Nat := 28

/-- LEN_MIN: the least width of a variable field, in bytes. -/
def lenMin : Nat := 1

/-- LEN_MAX: the greatest width of a variable field, in bytes. -/
def lenMax : Nat := 8

/-- IBUF_WINDOW and OBUF_SIZE are both 28 bytes (R60, R64). -/
def bufferSize : Nat := 28

/-- CRC_LEN_ADJUST, as the 16-bit amount added to or taken from a length (R140, R141). -/
def crcLenAdjust : BitVec 16 := 4

/-- The bit value of CRC_FLAG that means CrcPresent: 1 (R39; 93_implementation_defined.md I1). -/
def crcPresentValue : Bit := 1

end Sys2Proof.Config
end

