-- ==== Sys2Proof/Syntax.lean ====
section
/-! DEFINITION. What the host can ask of the block: the command codes (spec/opcode_table.json, one
constructor a row), the registers and buffers of its interface (10_state.md R22, 20_memory.md R66), one
host access (R70), and the lines of the host script (30_encoding.md R93). -/

namespace Sys2Proof

/-- The commands, one constructor per row of the opcode table (R80). A reserved row that covers several
codes keeps the bits its mask leaves open, so each of the 256 codes is one term. -/
inductive Instr where
  /-- 0x00 (R160). -/
  | nop
  /-- 0x01 (R170). -/
  | decode
  /-- 0x02 (R180). -/
  | encode
  /-- 0x03, reserved (R207). -/
  | reserved03
  /-- 0x04 to 0x07, reserved: 000001xx. -/
  | reserved04 (low : BitVec 2)
  /-- 0x08 to 0x0F, reserved: 00001xxx. -/
  | reserved08 (low : BitVec 3)
  /-- 0x10 to 0x1F, reserved: 0001xxxx. -/
  | reserved10 (low : BitVec 4)
  /-- 0x20 to 0x3F, reserved: 001xxxxx. -/
  | reserved20 (low : BitVec 5)
  /-- 0x40 to 0x7F, reserved: 01xxxxxx. -/
  | reserved40 (low : BitVec 6)
  /-- 0x80 to 0xFF, reserved: 1xxxxxxx. -/
  | reserved80 (low : BitVec 7)
  deriving DecidableEq, Repr

/-- The 14 fields of the header register file, in register-number order (R22, R35 to R48). -/
inductive HdrField where
  | version | pduType | direction | txMode | crcFlag | largeFile | dataLen
  | segCtrl | segMeta | entityLen | tsnLen | srcEid | tsn | dstEid
  deriving DecidableEq, Repr

/-- The width of a header field's register (R22). -/
abbrev HdrField.width : HdrField → Nat
  | .version => 3
  | .pduType => 1
  | .direction => 1
  | .txMode => 1
  | .crcFlag => 1
  | .largeFile => 1
  | .dataLen => 16
  | .segCtrl => 1
  | .segMeta => 1
  | .entityLen => 4
  | .tsnLen => 4
  | .srcEid => 64
  | .tsn => 64
  | .dstEid => 64

/-- What a register number of the host interface selects (R22). -/
inductive Reg where
  | cmd | status | inLen | outLen | rawSize
  | hdr (f : HdrField)
  /-- A number no register has: it reads 0 and ignores writes. -/
  | unmapped (number : BitVec 8)
  deriving DecidableEq, Repr

/-- The width of a register (R22). An unmapped number has none; a write to one carries 64 bits that
nothing looks at (DESIGN CHOICE, log entry 10). -/
abbrev Reg.width : Reg → Nat
  | .cmd => 8
  | .status => 16
  | .inLen => 32
  | .outLen => 5
  | .rawSize => 6
  | .hdr f => f.width
  | .unmapped _ => 64

/-- The two byte spaces (R66). -/
inductive Buf where
  | ibuf | obuf
  deriving DecidableEq, Repr

/-- One host access, or a reset (R22, R66, R70, R230). A write carries exactly its register's width
(R22, D28); an offset is a 5-bit number (R66). -/
inductive Access where
  | rd (r : Reg)
  | wr (r : Reg) (v : BitVec r.width)
  | rdb (b : Buf) (offset : BitVec 5)
  | wrb (b : Buf) (offset : BitVec 5) (v : Byte)
  | reset
  deriving DecidableEq, Repr

/-- One `F=v` of a SETHDR line (R93). -/
structure FieldValue where
  field : HdrField
  value : BitVec field.width
  deriving DecidableEq, Repr

/-- One line of the host script (R93). -/
inductive Line where
  /-- `WR`, `RD`, `WRB`, `RDB` or `RESET`. -/
  | access (a : Access)
  /-- `NOP`: `WR CMD, 0x00`. -/
  | nop
  /-- `DECODE`: `WR CMD, 0x01`. -/
  | decode
  /-- `ENCODE`: `WR CMD, 0x02`. -/
  | encode
  /-- `LOADBUF b0, ..., bk-1`: the bytes to IBUF from offset 0, then k to IN_LEN. -/
  | loadBuf (bytes : List Byte)
  /-- `SETHDR F1=v1, ...`: the fields in the order written. -/
  | setHdr (fields : List FieldValue)
  /-- `COPYOUT`: OUT_LEN bytes of OBUF to IBUF, then OUT_LEN to IN_LEN. -/
  | copyOut
  /-- One round of COPYOUT's loop: `RDB OBUF[i] -> b`, then `WRB IBUF[i], b`. -/
  | copyByte (i : BitVec 5)
  /-- `IF r[hi:lo] = v: line`: the host reads `r` and runs `line` if those bits equal `v`. -/
  | ifBits (r : Reg) (hi lo v : Nat) (line : Line)
  /-- `; text`: no access. -/
  | comment (text : String)
  deriving DecidableEq, Repr

end Sys2Proof
end

