-- ==== Sys2Proof/WellFormed.lean ====
section
/-! DEFINITION. Which terms of the host script stand for something the host can write (10_state.md R22,
30_encoding.md R93). A command needs no check: its operands are typed to the bits its row leaves open, so
every term of Instr is one of the 256 codes. -/

namespace Sys2Proof

/-- Numbers 0x05 to 0x0F and 0x1E to 0xFF are unmapped (R22). -/
def isUnmapped (n : BitVec 8) : Bool :=
  (0x05 ≤ n.toNat && n.toNat ≤ 0x0F) || 0x1E ≤ n.toNat

/-- `unmapped` carries a number that is unmapped. -/
def Reg.wellFormed : Reg → Bool
  | .unmapped n => isUnmapped n
  | _ => true

/-- An access addresses a register that exists as named. -/
def Access.wellFormed : Access → Bool
  | .rd r => r.wellFormed
  | .wr r _ => r.wellFormed
  | .rdb _ _ => true
  | .wrb _ _ _ => true
  | .reset => true

/-- LOADBUF "requires k ≤ 28"; the bits an IF names lie inside its register (R93). -/
def Line.wellFormed : Line → Bool
  | .access a => a.wellFormed
  | .nop => true
  | .decode => true
  | .encode => true
  | .loadBuf bytes => bytes.length ≤ Config.bufferSize
  | .setHdr _ => true
  | .copyOut => true
  | .copyByte _ => true
  | .ifBits r hi lo _ line => r.wellFormed && (lo ≤ hi && hi < r.width) && line.wellFormed
  | .comment _ => true

end Sys2Proof
end

