-- ==== Sys2Proof/Decode.lean ====
section
/-! DEFINITION. The command decoder and encoder (30_encoding.md R80 to R83, spec/opcode_table.json), and the
register numbers of the host interface both ways (10_state.md R22). -/

namespace Sys2Proof

/-- Why a byte sequence is no command. -/
inductive DecodeReject where
  /-- A command is one byte (R83) and there is none. -/
  | noCommandByte
  deriving DecidableEq, Repr

/-- One row of the opcode table. -/
structure OpcodeRow where
  mask : Byte
  value : Byte
  deriving DecidableEq, Repr

/-- The row a command belongs to, as spec/opcode_table.json gives its mask and match. -/
def Instr.row : Instr → OpcodeRow
  | .nop => ⟨0xFF, 0x00⟩
  | .decode => ⟨0xFF, 0x01⟩
  | .encode => ⟨0xFF, 0x02⟩
  | .reserved03 => ⟨0xFF, 0x03⟩
  | .reserved04 _ => ⟨0xFC, 0x04⟩
  | .reserved08 _ => ⟨0xF8, 0x08⟩
  | .reserved10 _ => ⟨0xF0, 0x10⟩
  | .reserved20 _ => ⟨0xE0, 0x20⟩
  | .reserved40 _ => ⟨0xC0, 0x40⟩
  | .reserved80 _ => ⟨0x80, 0x80⟩

/-- The opcode table's rows, in its order. -/
def opcodeTable : List OpcodeRow :=
  [⟨0xFF, 0x00⟩, ⟨0xFF, 0x01⟩, ⟨0xFF, 0x02⟩, ⟨0xFF, 0x03⟩, ⟨0xFC, 0x04⟩,
   ⟨0xF8, 0x08⟩, ⟨0xF0, 0x10⟩, ⟨0xE0, 0x20⟩, ⟨0xC0, 0x40⟩, ⟨0x80, 0x80⟩]

/-- Whether a code falls under a row. -/
def OpcodeRow.covers (r : OpcodeRow) (c : Byte) : Bool :=
  c &&& r.mask == r.value

/-- The command a code names: all 8 bits are compared, and every code names one (R81). -/
def decodeCommand (c : Byte) : Instr :=
  if c = 0x00 then .nop
  else if c = 0x01 then .decode
  else if c = 0x02 then .encode
  else if c = 0x03 then .reserved03
  else if c &&& 0xFC = 0x04 then .reserved04 (c.extractLsb' 0 2)
  else if c &&& 0xF8 = 0x08 then .reserved08 (c.extractLsb' 0 3)
  else if c &&& 0xF0 = 0x10 then .reserved10 (c.extractLsb' 0 4)
  else if c &&& 0xE0 = 0x20 then .reserved20 (c.extractLsb' 0 5)
  else if c &&& 0xC0 = 0x40 then .reserved40 (c.extractLsb' 0 6)
  else .reserved80 (c.extractLsb' 0 7)

/-- The decoder over a byte sequence: the command and the bytes after it (R83: one length, 8 bits). -/
def decodeBytes : List Byte → Except DecodeReject (Instr × List Byte)
  | [] => .error .noCommandByte
  | c :: rest => .ok (decodeCommand c, rest)

/-- A command's code. -/
def encodeCommand : Instr → Byte
  | .nop => 0x00
  | .decode => 0x01
  | .encode => 0x02
  | .reserved03 => 0x03
  | .reserved04 low => 0b000001#6 ++ low
  | .reserved08 low => 0b00001#5 ++ low
  | .reserved10 low => 0b0001#4 ++ low
  | .reserved20 low => 0b001#3 ++ low
  | .reserved40 low => 0b01#2 ++ low
  | .reserved80 low => 0b1#1 ++ low

/-- A command's bytes. -/
def encode (i : Instr) : List Byte :=
  [encodeCommand i]

/-- The bytes of an opcode-table word: the first byte is its lowest 8 bits, bits above `nbits` are 0, and
a command is at least its one byte long. -/
def tableBytes : (bytes w : Nat) → List Byte
  | 0, _ => []
  | n + 1, w => BitVec.ofNat 8 w :: tableBytes n (w / 256)

/-- The command the decoder reads from an opcode-table word. -/
def decodeTableWord (nbits w : Nat) : Option Instr :=
  match decodeBytes (tableBytes (max 1 (nbits / 8)) (w % 2 ^ nbits)) with
  | .ok (i, _) => some i
  | .error _ => none

/-- A header field's register number (R22). -/
def HdrField.number : HdrField → BitVec 8
  | .version => 0x10
  | .pduType => 0x11
  | .direction => 0x12
  | .txMode => 0x13
  | .crcFlag => 0x14
  | .largeFile => 0x15
  | .dataLen => 0x16
  | .segCtrl => 0x17
  | .segMeta => 0x18
  | .entityLen => 0x19
  | .tsnLen => 0x1A
  | .srcEid => 0x1B
  | .tsn => 0x1C
  | .dstEid => 0x1D

/-- A register's number (R22). -/
def Reg.number : Reg → BitVec 8
  | .cmd => 0x00
  | .status => 0x01
  | .inLen => 0x02
  | .outLen => 0x03
  | .rawSize => 0x04
  | .hdr f => f.number
  | .unmapped n => n

/-- All header fields, in register-number order. -/
def HdrField.all : List HdrField :=
  [.version, .pduType, .direction, .txMode, .crcFlag, .largeFile, .dataLen,
   .segCtrl, .segMeta, .entityLen, .tsnLen, .srcEid, .tsn, .dstEid]

/-- All mapped registers, in number order. -/
def Reg.mapped : List Reg :=
  [.cmd, .status, .inLen, .outLen, .rawSize] ++ HdrField.all.map .hdr

/-- The register a number selects; every number selects one, unmapped numbers included (R22). -/
def Reg.ofNumber (n : BitVec 8) : Reg :=
  (Reg.mapped.find? fun r => r.number == n).getD (.unmapped n)

end Sys2Proof
end

