-- ==== Sys2Proof/Machine/State.lean ====
section
/-! DEFINITION. The machine's state as plain data, the reasons a step can stop, and the state after reset
(10_state.md R20, 70_reset_and_hazards.md R230). -/

namespace Sys2Proof.Machine

/-- The header register file, or one header value (R34 to R48). -/
structure Hdr where
  version : BitVec 3
  pduType : Bit
  direction : Bit
  txMode : Bit
  crcFlag : Bit
  largeFile : Bit
  dataLen : BitVec 16
  segCtrl : Bit
  segMeta : Bit
  entityLen : BitVec 4
  tsnLen : BitVec 4
  srcEid : BitVec 64
  tsn : BitVec 64
  dstEid : BitVec 64
  deriving DecidableEq, Repr

/-- The written marks of the header fields (R49): true once the field has been written since reset. -/
structure HdrMarks where
  version : Bool
  pduType : Bool
  direction : Bool
  txMode : Bool
  crcFlag : Bool
  largeFile : Bool
  dataLen : Bool
  segCtrl : Bool
  segMeta : Bool
  entityLen : Bool
  tsnLen : Bool
  srcEid : Bool
  tsn : Bool
  dstEid : Bool
  deriving DecidableEq, Repr

/-- A buffer: its written bytes as (offset, byte) pairs (R60, R64). An offset is listed exactly when its
written mark is set (R49), so an unlisted offset has no value. -/
abbrev Memory := List Host.Cell

/-- Offsets strictly rise from at least `lo` and stay below the buffer's size. -/
def Memory.risingFrom : (lo : Nat) → Memory → Bool
  | _, [] => true
  | lo, (a, _) :: m => lo ≤ a && a < Config.bufferSize && Memory.risingFrom (a + 1) m

/-- The canonical form: strictly rising offsets, all inside the 28 bytes of the buffer. -/
def Memory.wf (m : Memory) : Bool :=
  Memory.risingFrom 0 m

/-- STATUS, read whole by the host (R24). Flags.lean names its fields. -/
abbrev Status := BitVec 16

/-- The decode errors (R200 to R203): reported in STATUS, after which the block carries on. -/
inductive DecodeError where
  | bufferTooSmall
  | invalidVersion
  | truncatedVariableField
  deriving DecidableEq, Repr

/-- The causes of a sticky fault (R206): recorded in STATUS, after which commands are ignored. -/
inductive FaultCause where
  | illegalCmd
  | encPrecond
  deriving DecidableEq, Repr

/-- The storage elements that carry a written mark (R49). -/
inductive Element where
  | hdr (f : HdrField)
  | ibuf (offset : Nat)
  | obuf (offset : Nat)
  deriving DecidableEq, Repr

/-- The model faults. A sticky fault of the block is no Fault: it is a next state with STATUS.FAULT set. -/
inductive Fault where
  /-- R208 (decision D12, treatment I5): a command or a host read read an element whose written mark is clear,
  which "a model must treat" as "a fault outcome of its step" (60_exceptions.md). Raised by DECODE, ENCODE
  and host reads of HDR fields, RAW_SIZE and buffer bytes. Safe: on the hardware the read gives a value
  no source states; here nothing more can be proved of the run. -/
  | unwrittenRead (e : Element)
  deriving DecidableEq, Repr

/-- Why a step may have no meaning. -/
inductive Refusal where
  /-- An instruction without a meaning. Raised by nothing: every command of the table has one. Safe. -/
  | notModelled (mnemonic : String)
  /-- A script line no host can write: LOADBUF of over 28 bytes, an IF on bits its register lacks, or an
  `unmapped` register under a mapped number. Raised by step. Safe. -/
  | illFormedLine
  deriving DecidableEq, Repr

/-- Why reading the offered header ended before the commit. -/
inductive DecodeStop where
  | raised (e : DecodeError)
  | modelFault (f : Fault)
  deriving DecidableEq, Repr

/-- Everything the spec gives the machine (R20), and the two host-side fields of the model's own. -/
structure State where
  /-- STATUS (R24). -/
  status : Status
  /-- IN_LEN (R31). -/
  inLen : BitVec 32
  /-- OUT_LEN (R32). -/
  outLen : BitVec 5
  /-- The header register file (R34); a field whose mark is clear holds no value of the spec's. -/
  hdr : Hdr
  /-- The header fields' written marks (R49). -/
  marks : HdrMarks
  /-- The input window (R60). -/
  ibuf : Memory
  /-- The output buffer (R64). -/
  obuf : Memory
  /-- The model's own: the host's script lines still to be issued, next one first. -/
  pending : List Line
  /-- The model's own: the values host reads have returned, newest first. -/
  reads : List Data
  deriving DecidableEq, Repr

/-- The numbers stored behind clear marks at reset: all 0 (DESIGN CHOICE, log entry 3). -/
def Hdr.blank : Hdr :=
  { version := 0, pduType := 0, direction := 0, txMode := 0, crcFlag := 0, largeFile := 0, dataLen := 0,
    segCtrl := 0, segMeta := 0, entityLen := 0, tsnLen := 0, srcEid := 0, tsn := 0, dstEid := 0 }

/-- Every mark equal to `b`. -/
def HdrMarks.fill (b : Bool) : HdrMarks :=
  { version := b, pduType := b, direction := b, txMode := b, crcFlag := b, largeFile := b, dataLen := b,
    segCtrl := b, segMeta := b, entityLen := b, tsnLen := b, srcEid := b, tsn := b, dstEid := b }

/-- The machine right after reset (R230, R231), with no host line pending and no read made. -/
def State.reset : State :=
  { status := 0x0000, inLen := 0, outLen := 0, hdr := Hdr.blank, marks := HdrMarks.fill false,
    ibuf := [], obuf := [], pending := [], reads := [] }

end Sys2Proof.Machine
end

