-- ==== Sys2Proof/Machine/Flags.lean ====
section
/-! DEFINITION. The fields of STATUS and the three ways the block writes them (10_state.md R24 to R30). -/

namespace Sys2Proof.Machine

/-- STATUS[1:0] (R25). -/
def Status.result (st : Status) : BitVec 2 := st.extractLsb' 0 2

/-- STATUS[3:2] (R26). -/
def Status.errCode (st : Status) : BitVec 2 := st.extractLsb' 2 2

/-- STATUS[5:4] (R27). -/
def Status.lastCmd (st : Status) : BitVec 2 := st.extractLsb' 4 2

/-- STATUS[6], reserved (R30). -/
def Status.reserved6 (st : Status) : Bit := st.extractLsb' 6 1

/-- STATUS[7] (R28). -/
def Status.fault (st : Status) : Bit := st.extractLsb' 7 1

/-- STATUS[9:8] (R29). -/
def Status.faultCause (st : Status) : BitVec 2 := st.extractLsb' 8 2

/-- STATUS[15:10], reserved (R30). -/
def Status.reservedHigh (st : Status) : BitVec 6 := st.extractLsb' 10 6

/-- RESULT OK (R24). -/
def resultOk : BitVec 2 := 0b01

/-- RESULT DECODE_ERROR (R24). -/
def resultDecodeError : BitVec 2 := 0b10

/-- ERRCODE NONE (R24). -/
def errNone : BitVec 2 := 0b00

/-- LAST_CMD DECODE (R24, R27). -/
def lastDecode : BitVec 2 := 0b01

/-- LAST_CMD ENCODE (R24, R27). -/
def lastEncode : BitVec 2 := 0b10

/-- ERRCODE of each decode error (R24). -/
def DecodeError.code : DecodeError → BitVec 2
  | .bufferTooSmall => 0b01
  | .invalidVersion => 0b10
  | .truncatedVariableField => 0b11

/-- FAULT_CAUSE of each fault (R24). -/
def FaultCause.code : FaultCause → BitVec 2
  | .illegalCmd => 0b01
  | .encPrecond => 0b10

/-- RESULT, ERRCODE and LAST_CMD are written together (R25 to R27); the bits above keep their values. -/
def Status.report (st : Status) (result err cmd : BitVec 2) : Status :=
  st.extractLsb' 6 10 ++ cmd ++ err ++ result

/-- FAULT and FAULT_CAUSE are written together (R28, R29); the other bits keep their values. -/
def Status.recordFault (st : Status) (cause : FaultCause) : Status :=
  st.extractLsb' 10 6 ++ cause.code ++ 1#1 ++ st.extractLsb' 0 7

end Sys2Proof.Machine
end

