-- ==== Sys2Proof/Machine/Ops.lean ====
section
/-! DEFINITION. The named operations over the buffers and registers, the entries into the error and fault
states (60_exceptions.md R200, R206; R214: there is no return from them), reset (R230), and the FAULT gate
every command passes (R23, R210). -/

namespace Sys2Proof.Machine

/-- The byte at an offset, if its written mark is set (R49). -/
def Memory.read : (m : Memory) → (a : Nat) → Option Byte
  | [], _ => none
  | (b, v) :: m, a => if a = b then some v else Memory.read m a

/-- Write one byte, setting its mark; the list stays in its canonical form. -/
def Memory.write : (m : Memory) → (a : Nat) → (v : Byte) → Memory
  | [], a, v => [(a, v)]
  | (b, u) :: m, a, v =>
    if a < b then (a, v) :: (b, u) :: m
    else if a = b then (a, v) :: m
    else (b, u) :: Memory.write m a v

/-- The `n` bytes from offset `a`, read in rising order; the first unwritten offset ends the read. -/
def Memory.readBytes (m : Memory) : (a n : Nat) → Except Nat (List Byte)
  | _, 0 => .ok []
  | a, n + 1 =>
    match m.read a with
    | none => .error a
    | some b =>
      match m.readBytes (a + 1) n with
      | .error o => .error o
      | .ok bs => .ok (b :: bs)

/-- Write bytes from offset `a` upwards. -/
def Memory.writeBytes : (m : Memory) → (a : Nat) → List Byte → Memory
  | m, _, [] => m
  | m, a, b :: bs => Memory.writeBytes (m.write a b) (a + 1) bs

/-- Read one header register. -/
def Hdr.get (h : Hdr) : (f : HdrField) → BitVec f.width
  | .version => h.version
  | .pduType => h.pduType
  | .direction => h.direction
  | .txMode => h.txMode
  | .crcFlag => h.crcFlag
  | .largeFile => h.largeFile
  | .dataLen => h.dataLen
  | .segCtrl => h.segCtrl
  | .segMeta => h.segMeta
  | .entityLen => h.entityLen
  | .tsnLen => h.tsnLen
  | .srcEid => h.srcEid
  | .tsn => h.tsn
  | .dstEid => h.dstEid

/-- Replace one header register. -/
def Hdr.set (h : Hdr) : (f : HdrField) → BitVec f.width → Hdr
  | .version, v => { h with version := v }
  | .pduType, v => { h with pduType := v }
  | .direction, v => { h with direction := v }
  | .txMode, v => { h with txMode := v }
  | .crcFlag, v => { h with crcFlag := v }
  | .largeFile, v => { h with largeFile := v }
  | .dataLen, v => { h with dataLen := v }
  | .segCtrl, v => { h with segCtrl := v }
  | .segMeta, v => { h with segMeta := v }
  | .entityLen, v => { h with entityLen := v }
  | .tsnLen, v => { h with tsnLen := v }
  | .srcEid, v => { h with srcEid := v }
  | .tsn, v => { h with tsn := v }
  | .dstEid, v => { h with dstEid := v }

/-- Whether a header field's mark is set. -/
def HdrMarks.get (k : HdrMarks) : HdrField → Bool
  | .version => k.version
  | .pduType => k.pduType
  | .direction => k.direction
  | .txMode => k.txMode
  | .crcFlag => k.crcFlag
  | .largeFile => k.largeFile
  | .dataLen => k.dataLen
  | .segCtrl => k.segCtrl
  | .segMeta => k.segMeta
  | .entityLen => k.entityLen
  | .tsnLen => k.tsnLen
  | .srcEid => k.srcEid
  | .tsn => k.tsn
  | .dstEid => k.dstEid

/-- Set a header field's mark. -/
def HdrMarks.set (k : HdrMarks) : HdrField → HdrMarks
  | .version => { k with version := true }
  | .pduType => { k with pduType := true }
  | .direction => { k with direction := true }
  | .txMode => { k with txMode := true }
  | .crcFlag => { k with crcFlag := true }
  | .largeFile => { k with largeFile := true }
  | .dataLen => { k with dataLen := true }
  | .segCtrl => { k with segCtrl := true }
  | .segMeta => { k with segMeta := true }
  | .entityLen => { k with entityLen := true }
  | .tsnLen => { k with tsnLen := true }
  | .srcEid => { k with srcEid := true }
  | .tsn => { k with tsn := true }
  | .dstEid => { k with dstEid := true }

/-- The first header field, in register-number order, whose mark is clear. -/
def HdrMarks.firstClear (k : HdrMarks) : Option HdrField :=
  HdrField.all.find? fun f => !k.get f

/-- Replace STATUS. -/
def State.setStatus (s : State) (st : Status) : State := { s with status := st }

/-- Write IN_LEN (R31). -/
def State.setInLen (s : State) (n : BitVec 32) : State := { s with inLen := n }

/-- Write OUT_LEN (R32). -/
def State.setOutLen (s : State) (n : BitVec 5) : State := { s with outLen := n }

/-- Write one header register and set its mark (R34, R49). -/
def State.writeHdr (s : State) (f : HdrField) (v : BitVec f.width) : State :=
  { s with hdr := s.hdr.set f v, marks := s.marks.set f }

/-- Write all 14 header registers at once and set their marks (R34, R49). -/
def State.commitHdr (s : State) (h : Hdr) : State :=
  { s with hdr := h, marks := HdrMarks.fill true }

/-- Replace the input window. -/
def State.setIbuf (s : State) (m : Memory) : State := { s with ibuf := m }

/-- Replace the output buffer. -/
def State.setObuf (s : State) (m : Memory) : State := { s with obuf := m }

/-- Replace the host's pending lines. -/
def State.setPending (s : State) (p : List Line) : State := { s with pending := p }

/-- Hand the host the value its read returned. -/
def State.pushRead (s : State) (v : Data) : State := { s with reads := v :: s.reads }

/-- The value the host's latest read returned. -/
def State.lastRead (s : State) : Data := s.reads.headD 0

/-- Whether the block is faulted: STATUS.FAULT = 1 (R28). -/
def State.faulted (s : State) : Bool := s.status.fault == 1

/-- Report a command that succeeded: RESULT OK, ERRCODE NONE, LAST_CMD the command (R25 to R27). -/
def State.reportOk (s : State) (cmd : BitVec 2) : State :=
  s.setStatus (s.status.report resultOk errNone cmd)

/-- `raise DecodeError(code)`: its only writes are RESULT, ERRCODE and LAST_CMD (R200). -/
def State.raiseDecodeError (s : State) (e : DecodeError) : State :=
  s.setStatus (s.status.report resultDecodeError e.code lastDecode)

/-- `fault(cause)`: its only writes are FAULT and FAULT_CAUSE (R206). -/
def State.raiseFault (s : State) (cause : FaultCause) : State :=
  s.setStatus (s.status.recordFault cause)

/-- Reset (R230): STATUS, IN_LEN and OUT_LEN to 0 and every mark clear. The host's own position and what it
has read are not the block's, and stay. -/
def State.resetBlock (s : State) : State :=
  { State.reset with pending := s.pending, reads := s.reads }

/-- A command issued while STATUS.FAULT = 1 is ignored; otherwise it runs (R23, R210, R211). -/
def runUnlessFaulted (command : State → Host.Outcome State Fault Refusal) (s : State) :
    Host.Outcome State Fault Refusal :=
  if s.faulted then .next s else command s

/-- Change the next state of an outcome, if it has one. -/
def mapNext (f : State → State) : Host.Outcome State Fault Refusal → Host.Outcome State Fault Refusal
  | .next s => .next (f s)
  | .fault r => .fault r
  | .refused r => .refused r

end Sys2Proof.Machine
end

