-- ==== Sys2Proof/Machine/Labels.lean ====
section
/-! DEFINITION. What each flag bit value means (10_state.md R36 to R40, R42, R43). Only CRC_FLAG's meaning changes a
computed value (R39, 41_field_codec.md R143); the others are names. -/

namespace Sys2Proof.Machine

inductive PduType where
  | fileDirective | fileData
  deriving DecidableEq, Repr

inductive Direction where
  | toReceiver | toSender
  deriving DecidableEq, Repr

inductive TransmissionMode where
  | acknowledged | unacknowledged
  deriving DecidableEq, Repr

inductive CrcFlag where
  | crcNotPresent | crcPresent
  deriving DecidableEq, Repr

inductive LargeFileFlag where
  | smallFile | largeFile
  deriving DecidableEq, Repr

inductive SegmentationControl where
  | notPreserved | preserved
  deriving DecidableEq, Repr

inductive SegmentMetadataFlag where
  | notPresent | present
  deriving DecidableEq, Repr

/-- R36. -/
def PduType.ofBit (b : Bit) : PduType := if b = 1 then .fileData else .fileDirective

/-- R37. -/
def Direction.ofBit (b : Bit) : Direction := if b = 1 then .toSender else .toReceiver

/-- R38. -/
def TransmissionMode.ofBit (b : Bit) : TransmissionMode := if b = 1 then .unacknowledged else .acknowledged

/-- R39. -/
def CrcFlag.ofBit (b : Bit) : CrcFlag := if b = Config.crcPresentValue then .crcPresent else .crcNotPresent

/-- R40. -/
def LargeFileFlag.ofBit (b : Bit) : LargeFileFlag := if b = 1 then .largeFile else .smallFile

/-- R42. -/
def SegmentationControl.ofBit (b : Bit) : SegmentationControl := if b = 1 then .preserved else .notPreserved

/-- R43. -/
def SegmentMetadataFlag.ofBit (b : Bit) : SegmentMetadataFlag := if b = 1 then .present else .notPresent

end Sys2Proof.Machine
end

