-- ==== Sys2Proof/Machine/FieldCodec.lean ====
section
/-! DEFINITION. The field codec: bytes 0 and 3 of the header, the length codes and the CRC length adjustment
(41_field_codec.md). -/

namespace Sys2Proof.Machine

/-- The six fields of header byte 0 (R85). -/
structure Byte0 where
  version : BitVec 3
  pduType : Bit
  direction : Bit
  txMode : Bit
  crcFlag : Bit
  largeFile : Bit
  deriving DecidableEq, Repr

/-- The four fields of header byte 3, the widths as byte counts (R87). -/
structure Byte3 where
  segCtrl : Bit
  entityLen : BitVec 4
  segMeta : Bit
  tsnLen : BitVec 4
  deriving DecidableEq, Repr

/-- A width a length code can hold (R135). -/
abbrev widthLegal (w : BitVec 4) : Prop :=
  Config.lenMin ≤ w.toNat ∧ w.toNat ≤ Config.lenMax

/-- BF_UNPACK0 (R130). -/
def bfUnpack0 (b : Byte) : Byte0 :=
  { version := b.extractLsb' 5 3, pduType := b.extractLsb' 4 1, direction := b.extractLsb' 3 1,
    txMode := b.extractLsb' 2 1, crcFlag := b.extractLsb' 1 1, largeFile := b.extractLsb' 0 1 }

/-- BF_PACK0 (R131), the fields joined from bit 7 down (R85). -/
def bfPack0 (f : Byte0) : Byte :=
  f.version ++ f.pduType ++ f.direction ++ f.txMode ++ f.crcFlag ++ f.largeFile

/-- LEN_DECODE (R134). -/
def lenDecode (c : BitVec 3) : BitVec 4 :=
  c.setWidth 4 + 1

/-- LEN_ENCODE (R135). It has no value for a width outside 1 to 8, so it takes a proof that there is one. -/
def lenEncode (w : BitVec 4) (_legal : widthLegal w) : BitVec 3 :=
  (w - 1).setWidth 3

/-- BF_UNPACK3 (R132). -/
def bfUnpack3 (b : Byte) : Byte3 :=
  { segCtrl := b.extractLsb' 7 1, entityLen := lenDecode (b.extractLsb' 4 3),
    segMeta := b.extractLsb' 3 1, tsnLen := lenDecode (b.extractLsb' 0 3) }

/-- BF_PACK3 (R133), the fields joined from bit 7 down (R87). -/
def bfPack3 (f : Byte3) (entityLegal : widthLegal f.entityLen) (tsnLegal : widthLegal f.tsnLen) : Byte :=
  f.segCtrl ++ lenEncode f.entityLen entityLegal ++ f.segMeta ++ lenEncode f.tsnLen tsnLegal

/-- CRC_ADJUST_DECODE (R140): DATA_LEN from the raw length, mod 2^16. -/
def crcAdjustDecode (raw : BitVec 16) (crc : Bit) : BitVec 16 :=
  match CrcFlag.ofBit crc with
  | .crcPresent => raw - Config.crcLenAdjust
  | .crcNotPresent => raw

/-- CRC_ADJUST_ENCODE (R141): the raw length from DATA_LEN, mod 2^16. -/
def crcAdjustEncode (dlen : BitVec 16) (crc : Bit) : BitVec 16 :=
  match CrcFlag.ofBit crc with
  | .crcPresent => dlen + Config.crcLenAdjust
  | .crcNotPresent => dlen

end Sys2Proof.Machine
end

