-- ==== Sys2Proof/Machine/BigEndian.lean ====
section
/-! DEFINITION. The big-endian unit: BE_EXTRACT, BE_EXTRACT_CHECKED and BE_PACK (40_be_unit.md). -/

namespace Sys2Proof.Machine

/-- Append bytes, most significant first, below the number `v`: the loop of R110. -/
def beAppend (v : Nat) : List Byte → Nat
  | [] => v
  | b :: bs => beAppend (v * 256 + b.toNat) bs

/-- The number a byte sequence holds big-endian (R110). -/
def beValue (bytes : List Byte) : Nat :=
  beAppend 0 bytes

/-- The `w` big-endian bytes of `v` (R116). -/
def beBytes : (w v : Nat) → List Byte
  | 0, _ => []
  | w + 1, v => BitVec.ofNat 8 ((v >>> (8 * w)) &&& 0xFF) :: beBytes w v

/-- Read one byte of the input window inside DECODE; an unwritten one is a model fault (R49, R208). -/
def readInput (ibuf : Memory) (a : Nat) : Except DecodeStop Byte :=
  match ibuf.read a with
  | some b => .ok b
  | none => .error (.modelFault (.unwrittenRead (.ibuf a)))

/-- BE_EXTRACT(a, w) (R110): it does no bounds check. -/
def beExtract (ibuf : Memory) (a w : Nat) : Except DecodeStop Nat :=
  match ibuf.readBytes a w with
  | .ok bytes => .ok (beValue bytes)
  | .error o => .error (.modelFault (.unwrittenRead (.ibuf o)))

/-- BE_EXTRACT_CHECKED(a, w) (R112): the value and the offset just past the field, or the error before any
byte of the field is read. -/
def beExtractChecked (inLen : BitVec 32) (ibuf : Memory) (a w : Nat) : Except DecodeStop (Nat × Nat) :=
  if inLen.toNat < a + w then .error (.raised .truncatedVariableField)
  else
    match beExtract ibuf a w with
    | .ok v => .ok (v, a + w)
    | .error stop => .error stop

/-- BE_PACK's precondition (R116). -/
abbrev packFits (w v : Nat) : Prop :=
  Config.lenMin ≤ w ∧ w ≤ Config.lenMax ∧ v < 2 ^ (8 * w)

/-- BE_PACK(a, w, v) (R116). A value too wide for its width has no meaning (R118), so it takes a proof that
the value fits. -/
def bePack (obuf : Memory) (a w v : Nat) (_fits : packFits w v) : Memory :=
  obuf.writeBytes a (beBytes w v)

end Sys2Proof.Machine
end

