-- ==== Sys2Proof/Machine/Operands.lean ====
section
/-! DEFINITION. The commands' implicit operands (30_encoding.md R80): DECODE's offered header in IN_LEN and IBUF,
ENCODE's header in HDR and its check, and the RAW_SIZE view. -/

namespace Sys2Proof.Machine

/-- Byte 0's fields of a header. -/
abbrev Hdr.byte0 (h : Hdr) : Byte0 :=
  { version := h.version, pduType := h.pduType, direction := h.direction, txMode := h.txMode,
    crcFlag := h.crcFlag, largeFile := h.largeFile }

/-- Byte 3's fields of a header. -/
abbrev Hdr.byte3 (h : Hdr) : Byte3 :=
  { segCtrl := h.segCtrl, entityLen := h.entityLen, segMeta := h.segMeta, tsnLen := h.tsnLen }

/-- The formula 4 + 2·ENTITY_LEN + TSN_LEN (R89, R190). -/
def Hdr.rawSize (h : Hdr) : Nat :=
  Config.fixedPrefixSize + 2 * h.entityLen.toNat + h.tsnLen.toNat

/-- The invariants of the source's data model, which ENCODE checks (R172, R209). -/
abbrev Hdr.Legal (h : Hdr) : Prop :=
  widthLegal h.entityLen ∧ widthLegal h.tsnLen ∧
  h.srcEid.toNat < 2 ^ (8 * h.entityLen.toNat) ∧
  h.tsn.toNat < 2 ^ (8 * h.tsnLen.toNat) ∧
  h.dstEid.toNat < 2 ^ (8 * h.entityLen.toNat)

/-- DECODE's reading of the offered buffer, in the source's order (R170 up to its commit): the header, or the
first event met. It looks at nothing but IN_LEN and IBUF (R187). -/
def parseHeader (inLen : BitVec 32) (ibuf : Memory) : Except DecodeStop Hdr :=
  if inLen.toNat < Config.minHeaderSize then .error (.raised .bufferTooSmall)
  else do
    let b0 ← readInput ibuf 0
    let f0 := bfUnpack0 b0
    -- R202: the defensive check, never true of a 3-bit version
    if 7 < f0.version.toNat then .error (.raised .invalidVersion)
    else do
      let raw ← beExtract ibuf 1 2
      let b3 ← readInput ibuf 3
      let f3 := bfUnpack3 b3
      let (src, o1) ← beExtractChecked inLen ibuf Config.fixedPrefixSize f3.entityLen.toNat
      let (tsn, o2) ← beExtractChecked inLen ibuf o1 f3.tsnLen.toNat
      let (dst, _) ← beExtractChecked inLen ibuf o2 f3.entityLen.toNat
      .ok { version := f0.version, pduType := f0.pduType, direction := f0.direction, txMode := f0.txMode,
            crcFlag := f0.crcFlag, largeFile := f0.largeFile,
            dataLen := crcAdjustDecode (BitVec.ofNat 16 raw) f0.crcFlag,
            segCtrl := f3.segCtrl, segMeta := f3.segMeta, entityLen := f3.entityLen, tsnLen := f3.tsnLen,
            srcEid := BitVec.ofNat 64 src, tsn := BitVec.ofNat 64 tsn, dstEid := BitVec.ofNat 64 dst }

/-- ENCODE's reading of all 14 header registers (R180 step 0). Of several unwritten ones the first in
register-number order is named (DESIGN CHOICE, log entry 6). -/
def readHeader (s : State) : Except Fault Hdr :=
  match s.marks.firstClear with
  | none => .ok s.hdr
  | some f => .error (.unwrittenRead (.hdr f))

/-- ENCODE's writing of a legal header into the output buffer (R180 steps 1 to 5). -/
def emitHeader (h : Hdr) (legal : h.Legal) (obuf : Memory) : Memory :=
  let L := h.entityLen.toNat
  let T := h.tsnLen.toNat
  let real := crcAdjustEncode h.dataLen h.crcFlag
  let m := obuf.write 0 (bfPack0 h.byte0)
  let m := bePack m 1 2 real.toNat ⟨by decide, by decide, real.isLt⟩
  let m := m.write 3 (bfPack3 h.byte3 legal.1 legal.2.1)
  let m := bePack m 4 L h.srcEid.toNat ⟨legal.1.1, legal.1.2, legal.2.2.1⟩
  let m := bePack m (4 + L) T h.tsn.toNat ⟨legal.2.1.1, legal.2.1.2, legal.2.2.2.1⟩
  bePack m (4 + L + T) L h.dstEid.toNat ⟨legal.1.1, legal.1.2, legal.2.2.2.2⟩

/-- A host read of RAW_SIZE (R33, R190): it reads ENTITY_LEN, then TSN_LEN. -/
def readRawSize (s : State) : Except Fault (BitVec 6) :=
  if !s.marks.entityLen then .error (.unwrittenRead (.hdr .entityLen))
  else if !s.marks.tsnLen then .error (.unwrittenRead (.hdr .tsnLen))
  else .ok (BitVec.ofNat 6 s.hdr.rawSize)

end Sys2Proof.Machine
end

