-- ==== Sys2Proof/Machine/Framer.lean ====
section
/-! DEFINITION. The framer's commands NOP, DECODE and ENCODE (42_framer_commands.md). -/

namespace Sys2Proof.Machine

/-- DECODE while the block is not faulted (R170, R171): commit the header read, or report the error. -/
def decodeCommandBody (s : State) : Host.Outcome State Fault Refusal :=
  match parseHeader s.inLen s.ibuf with
  | .ok h => .next ((s.commitHdr h).reportOk lastDecode)
  | .error (.raised e) => .next (s.raiseDecodeError e)
  | .error (.modelFault f) => .fault f

/-- ENCODE while the block is not faulted (R180 to R183). -/
def encodeCommandBody (s : State) : Host.Outcome State Fault Refusal :=
  match readHeader s with
  | .error f => .fault f
  | .ok h =>
    if legal : h.Legal then
      .next (((s.setObuf (emitHeader h legal s.obuf)).setOutLen (BitVec.ofNat 5 h.rawSize)).reportOk lastEncode)
    else .next (s.raiseFault .encPrecond)

/-- NOP (R160). -/
def execNop (s : State) : Host.Outcome State Fault Refusal :=
  runUnlessFaulted .next s

/-- DECODE (R170). -/
def execDecode (s : State) : Host.Outcome State Fault Refusal :=
  runUnlessFaulted decodeCommandBody s

/-- ENCODE (R180). -/
def execEncode (s : State) : Host.Outcome State Fault Refusal :=
  runUnlessFaulted encodeCommandBody s

end Sys2Proof.Machine
end

