-- ==== Sys2Proof/Machine/Reserved.lean ====
section
/-! DEFINITION. The reserved command codes 0x03 to 0xFF: each raises the sticky fault ILLEGAL_CMD (60_exceptions.md R207,
30_encoding.md R82). No bit of the code is recorded (R205). -/

namespace Sys2Proof.Machine

/-- A reserved code while the block is not faulted (R207). -/
def illegalCommand (s : State) : Host.Outcome State Fault Refusal :=
  .next (s.raiseFault .illegalCmd)

/-- 0x03. -/
def execReserved03 (s : State) : Host.Outcome State Fault Refusal :=
  runUnlessFaulted illegalCommand s

/-- 0x04 to 0x07. -/
def execReserved04 (_low : BitVec 2) (s : State) : Host.Outcome State Fault Refusal :=
  runUnlessFaulted illegalCommand s

/-- 0x08 to 0x0F. -/
def execReserved08 (_low : BitVec 3) (s : State) : Host.Outcome State Fault Refusal :=
  runUnlessFaulted illegalCommand s

/-- 0x10 to 0x1F. -/
def execReserved10 (_low : BitVec 4) (s : State) : Host.Outcome State Fault Refusal :=
  runUnlessFaulted illegalCommand s

/-- 0x20 to 0x3F. -/
def execReserved20 (_low : BitVec 5) (s : State) : Host.Outcome State Fault Refusal :=
  runUnlessFaulted illegalCommand s

/-- 0x40 to 0x7F. -/
def execReserved40 (_low : BitVec 6) (s : State) : Host.Outcome State Fault Refusal :=
  runUnlessFaulted illegalCommand s

/-- 0x80 to 0xFF. -/
def execReserved80 (_low : BitVec 7) (s : State) : Host.Outcome State Fault Refusal :=
  runUnlessFaulted illegalCommand s

end Sys2Proof.Machine
end

