-- ==== Sys2Proof/Machine/HostAccess.lean ====
section
/-! DEFINITION. One host access on the block: register reads and writes (10_state.md R22, R23), buffer bytes (20_memory.md
R60, R64, R66) and reset (70_reset_and_hazards.md R230). Writing CMD is the only access that runs anything
(R70). -/

namespace Sys2Proof.Machine

/-- The value a host read of a register returns, zero-extended (R22, R23, R33, R49). -/
def readReg (r : Reg) (s : State) : Except Fault Data :=
  match r with
  | .cmd => .ok 0
  | .status => .ok (s.status.setWidth 64)
  | .inLen => .ok (s.inLen.setWidth 64)
  | .outLen => .ok (s.outLen.setWidth 64)
  | .rawSize =>
    match readRawSize s with
    | .ok v => .ok (v.setWidth 64)
    | .error f => .error f
  | .hdr f => if s.marks.get f then .ok ((s.hdr.get f).setWidth 64) else .error (.unwrittenRead (.hdr f))
  | .unmapped _ => .ok 0

/-- A host write of CMD issues the command it names (R23, R81). -/
def issueCommand (c : Byte) (s : State) : Host.Outcome State Fault Refusal :=
  exec (decodeCommand c) s

/-- A host write of a register (R22): CMD runs a command; a read-only or unmapped one ignores it. -/
def writeReg : (r : Reg) → BitVec r.width → State → Host.Outcome State Fault Refusal
  | .cmd, c, s => issueCommand c s
  | .status, _, s => .next s
  | .inLen, n, s => .next (s.setInLen n)
  | .outLen, _, s => .next s
  | .rawSize, _, s => .next s
  | .hdr f, v, s => .next (s.writeHdr f v)
  | .unmapped _, _, s => .next s

/-- A buffer's bytes. -/
def State.buffer (s : State) : Buf → Memory
  | .ibuf => s.ibuf
  | .obuf => s.obuf

/-- The element at a buffer's offset. -/
def bufferElement : Buf → Nat → Element
  | .ibuf, a => .ibuf a
  | .obuf, a => .obuf a

/-- The value a host read of a buffer byte returns: 0 at the unmapped offsets 28 to 31 (R66), a model fault at
an unwritten byte (R208). -/
def readByte (b : Buf) (offset : BitVec 5) (s : State) : Except Fault Data :=
  if Config.bufferSize ≤ offset.toNat then .ok 0
  else
    match (s.buffer b).read offset.toNat with
    | some v => .ok (v.setWidth 64)
    | none => .error (.unwrittenRead (bufferElement b offset.toNat))

/-- A host write of a buffer byte: ignored at offsets 28 to 31 (R66) and everywhere in OBUF (R64). -/
def writeByte (b : Buf) (offset : BitVec 5) (v : Byte) (s : State) : State :=
  match b with
  | .obuf => s
  | .ibuf => if Config.bufferSize ≤ offset.toNat then s else s.setIbuf (s.ibuf.write offset.toNat v)

/-- Hand the host what it read, or end in the model fault. -/
def answerRead (value : Except Fault Data) (s : State) : Host.Outcome State Fault Refusal :=
  match value with
  | .ok v => .next (s.pushRead v)
  | .error f => .fault f

/-- One host access or reset. -/
def performAccess (a : Access) (s : State) : Host.Outcome State Fault Refusal :=
  match a with
  | .rd r => answerRead (readReg r s) s
  | .wr r v => writeReg r v s
  | .rdb b offset => answerRead (readByte b offset s) s
  | .wrb b offset v => .next (writeByte b offset v s)
  | .reset => .next s.resetBlock

end Sys2Proof.Machine
end

