-- ==== Sys2Proof/Machine/Script.lean ====
section
/-! DEFINITION. The host script (30_encoding.md R93): which accesses a line expands into, and how the host goes through them
one access a step (70_reset_and_hazards.md R244). All of it is the host's; the block sees only the accesses. -/

namespace Sys2Proof.Machine

/-- LOADBUF's byte writes, from offset `i` upwards. -/
def loadBytes : (i : Nat) → List Byte → List Access
  | _, [] => []
  | i, b :: bs => .wrb .ibuf (BitVec.ofNat 5 i) b :: loadBytes (i + 1) bs

/-- The accesses a line expands into that depend on no value read. IF, COPYOUT and its rounds begin with one
read; what they do next depends on it (`lineAfterRead`). -/
def lineAccesses : Line → List Access
  | .access a => [a]
  | .nop => [.wr .cmd 0x00]
  | .decode => [.wr .cmd 0x01]
  | .encode => [.wr .cmd 0x02]
  | .loadBuf bytes => loadBytes 0 bytes ++ [.wr .inLen (BitVec.ofNat 32 bytes.length)]
  | .setHdr fields => fields.map fun fv => .wr (.hdr fv.field) fv.value
  | .copyOut => [.rd .outLen]
  | .copyByte i => [.rdb .obuf i]
  | .ifBits r _ _ _ _ => [.rd r]
  | .comment _ => []

/-- What a line goes on with once its read has returned `v` (R93). -/
def lineAfterRead (v : Data) : Line → List Line
  | .copyOut => (List.range v.toNat).map (fun i => .copyByte (BitVec.ofNat 5 i)) ++
      [.access (.wr .inLen (v.setWidth 32))]
  | .copyByte i => [.access (.wrb .ibuf i (v.setWidth 8))]
  | .ifBits _ hi lo w line => if (v.extractLsb hi lo).toNat = w then [line] else []
  | _ => []

/-- Run a line's first access; what is left of the line comes before the lines still pending. A line without
an access changes nothing but the host's position (DESIGN CHOICE, log entry 8). -/
def runLine (line : Line) (s : State) : Host.Outcome State Fault Refusal :=
  match lineAccesses line with
  | [] => .next s
  | a :: more =>
    mapNext (fun t => t.setPending (more.map .access ++ lineAfterRead t.lastRead line ++ t.pending))
      (performAccess a s)

/-- One step of the machine: the host's next line, if it is one a host can write. With no line pending the
block is quiescent (R245). -/
def hostStep (s : State) : Host.Outcome State Fault Refusal :=
  match s.pending with
  | [] => .next s
  | line :: rest => if line.wellFormed then runLine line (s.setPending rest) else .refused .illFormedLine

/-- The host is about to write an opcode-table word to CMD, before whatever it had pending. -/
def State.withCommandNext (s : State) (nbits w : Nat) : State :=
  s.setPending (.access (.wr .cmd (BitVec.ofNat 8 (w % 2 ^ nbits))) :: s.pending)

end Sys2Proof.Machine
end

