-- ==== Sys2Proof/Machine/Step.lean ====
section
/-! DEFINITION. The machine's step, and an instruction placed where the step takes its next one. -/

namespace Sys2Proof.Machine

/-- One host access, command or reset (70_reset_and_hazards.md R244). -/
def step (s : State) : Host.Outcome State Fault Refusal :=
  hostStep s

/-- The block fetches nothing (R21): the next instruction is the one the host writes to CMD next. -/
def State.withFetchWord (s : State) (nbits w : Nat) : State :=
  s.withCommandNext nbits w

end Sys2Proof.Machine
end

