-- ==== Sys2Proof/Safety.lean ====
section
/-! DEFINITION. What holds of every state of a run (10_state.md R24 to R32, R49), and what a run that did not end in a fault is
(70_reset_and_hazards.md R245). -/

namespace Sys2Proof.Safety

open Sys2Proof.Machine

/-- STATUS holds no encoding that R24 and R30 call never produced, and its fields fit together: a cause exactly
while FAULT = 1 (R29), an error code exactly with DECODE_ERROR, which only DECODE reports (R26, R27), and a last
command exactly once a result was written (R25, R27). -/
structure StatusLegal (st : Status) : Prop where
  result : st.result ≠ 0b11
  errCode : st.errCode ≠ 0b10
  lastCmd : st.lastCmd ≠ 0b11
  reserved6 : st.reserved6 = 0
  reservedHigh : st.reservedHigh = 0
  faultCause : st.faultCause ≠ 0b11
  cause_iff : st.faultCause = 0b00 ↔ st.fault = 0
  error_iff : st.errCode = 0b00 ↔ st.result ≠ resultDecodeError
  error_decode : st.result = resultDecodeError → st.lastCmd = lastDecode
  result_iff : st.result = 0b00 ↔ st.lastCmd = 0b00

/-- Both buffers are in canonical form. -/
def BuffersCanonical (s : State) : Prop :=
  s.ibuf.wf = true ∧ s.obuf.wf = true

/-- OUT_LEN is 0 or the length of an encoded header, whose bytes are all written (R32, R181); it is not 0 once
ENCODE is the last command reported. -/
def OutputPresent (s : State) : Prop :=
  (s.outLen = 0 ∨
    (Config.minHeaderSize ≤ s.outLen.toNat ∧ s.outLen.toNat ≤ Config.maxHeaderSize ∧
      ∀ a < s.outLen.toNat, s.obuf.read a ≠ none)) ∧
  (s.status.lastCmd = lastEncode → s.outLen ≠ 0)

/-- After a reported success every header field has been written: DECODE wrote all of them, ENCODE read all of
them (R170, R180), and no write clears a mark (R49). -/
def HeaderPresent (s : State) : Prop :=
  s.status.result = resultOk → ∀ f, s.marks.get f = true

/-- The number stored behind a clear mark is 0 (the model's choice, log entry 3). -/
def UnwrittenBlank (s : State) : Prop :=
  ∀ f, s.marks.get f = false → s.hdr.get f = 0

/-- The invariant of the model. -/
structure Inv (s : State) : Prop where
  status : StatusLegal s.status
  buffers : BuffersCanonical s
  output : OutputPresent s
  header : HeaderPresent s
  blank : UnwrittenBlank s

/-- `k` steps from `s`, ending at the first fault or refusal. -/
def stepTimes : (k : Nat) → (s : State) → Host.Outcome State Fault Refusal
  | 0, s => .next s
  | k + 1, s =>
    match step s with
    | .next t => stepTimes k t
    | .fault r => .fault r
    | .refused r => .refused r

/-- A run from `s` that goes through all its lines within `k` steps, without a model fault, and ends in `t`
(R245). -/
def RunsTo (k : Nat) (s t : State) : Prop :=
  stepTimes k s = .next t ∧ t.pending = []

/-- A run that did not end in a fault: "A run whose final STATUS.FAULT = 1 has ended in a fault" (R245). -/
def EndsClean (k : Nat) (s t : State) : Prop :=
  RunsTo k s t ∧ t.faulted = false

end Sys2Proof.Safety
end

