-- ==== Sys2Proof/Certificates/Slice0/Obligations.lean ====
section
/-! DEFINITION. The statements for the provers, in the order of OBLIGATIONS.json. Each docstring cites the rule of spec/ it
formalises, or the sections it rests on. -/

namespace Sys2Proof.Claims

open Sys2Proof.Machine

/-- The `n` offsets from `a` are written, and hold the bytes of `b` (a sequence indexed by offset). -/
def Holds (m : Memory) (a n : Nat) (b : Nat → Byte) : Prop :=
  ∀ k < n, m.read (a + k) = some (b (a + k))

/-- The sum of R110: the bytes of `b` from offset `a`, the first one weighing most. -/
def bigEndian (b : Nat → Byte) (a w : Nat) : Nat :=
  ((List.range w).map fun k => (b (a + k)).toNat * 2 ^ (8 * (w - 1 - k))).sum

/-- The width of the entity IDs that byte 3 announces (R87). -/
def entityWidth (b : Nat → Byte) : Nat := (b 3).toNat / 16 % 8 + 1

/-- The width of the transaction sequence number that byte 3 announces (R87). -/
def tsnWidth (b : Nat → Byte) : Nat := (b 3).toNat % 8 + 1

/-- The size of the header that byte 3 announces (R89). -/
def headerSize (b : Nat → Byte) : Nat := 4 + 2 * entityWidth b + tsnWidth b

/-- From `st` to `st'`, RESULT, ERRCODE and LAST_CMD were written and nothing else changed (R25 to R27). -/
def Reported (st st' : Status) (result err cmd : BitVec 2) : Prop :=
  st'.result = result ∧ st'.errCode = err ∧ st'.lastCmd = cmd ∧ st'.reserved6 = st.reserved6 ∧
  st'.fault = st.fault ∧ st'.faultCause = st.faultCause ∧ st'.reservedHigh = st.reservedHigh

/-- From `s` to `t`, FAULT and FAULT_CAUSE were written and nothing else changed (R206). -/
def FaultRaised (s : State) (cause : BitVec 2) (t : State) : Prop :=
  t = s.setStatus t.status ∧ t.status.fault = 1 ∧ t.status.faultCause = cause ∧
  t.status.result = s.status.result ∧ t.status.errCode = s.status.errCode ∧
  t.status.lastCmd = s.status.lastCmd ∧ t.status.reserved6 = s.status.reserved6 ∧
  t.status.reservedHigh = s.status.reservedHigh

/-- The element's written mark is clear (R49). -/
def Unwritten (s : State) : Element → Prop
  | .hdr f => s.marks.get f = false
  | .ibuf a => a < 28 ∧ s.ibuf.read a = none
  | .obuf a => a < 28 ∧ s.obuf.read a = none

end Sys2Proof.Claims

section
open Sys2Proof Sys2Proof.Machine Sys2Proof.Safety Sys2Proof.Claims

/-- A code of each row, written out from R80's table and the table's masks, names its command. -/
def Obligations.CommandWordsDecode : Prop :=
  decodeCommand 0x00 = .nop ∧ decodeCommand 0x01 = .decode ∧ decodeCommand 0x02 = .encode ∧
  decodeCommand 0x03 = .reserved03 ∧ decodeCommand 0x06 = .reserved04 2 ∧
  decodeCommand 0x0D = .reserved08 5 ∧ decodeCommand 0x1F = .reserved10 15 ∧
  decodeCommand 0x20 = .reserved20 0 ∧ decodeCommand 0x5A = .reserved40 0x1A ∧
  decodeCommand 0xFF = .reserved80 0x7F

/-- R81: exactly one row matches each of the 256 codes, and no two codes are one command. -/
def Obligations.EveryCodeIsOneCommand : Prop :=
  (∀ c : Byte, opcodeTable.filter (fun r => r.covers c) = [(decodeCommand c).row]) ∧
  (∀ c : Byte, encodeCommand (decodeCommand c) = c) ∧
  (∀ c : Byte, (decodeCommand c = .nop ↔ c = 0x00) ∧ (decodeCommand c = .decode ↔ c = 0x01) ∧
    (decodeCommand c = .encode ↔ c = 0x02))

/-- Decoding a command's bytes gives the command back, whatever follows them (R80, R83). -/
def Obligations.DecodeOfEncode : Prop :=
  ∀ (i : Instr) (rest : List Byte), decodeBytes (encode i ++ rest) = .ok (i, rest)

/-- A step at a pending write to CMD is the command it names, run on the state past that line; so is a step at a
NOP, DECODE or ENCODE line, and a step of the state withFetchWord gives (R23, R93, log entry 1). -/
def Obligations.StepRunsIssuedCommand : Prop :=
  (∀ (s : State) (c : Byte) (rest : List Line), s.pending = .access (.wr .cmd c) :: rest →
    step s = exec (decodeCommand c) (s.setPending rest)) ∧
  (∀ (s : State) (rest : List Line), s.pending = .nop :: rest → step s = exec .nop (s.setPending rest)) ∧
  (∀ (s : State) (rest : List Line), s.pending = .decode :: rest → step s = exec .decode (s.setPending rest)) ∧
  (∀ (s : State) (rest : List Line), s.pending = .encode :: rest → step s = exec .encode (s.setPending rest)) ∧
  (∀ (s : State) (i : Instr), step (s.withFetchWord 8 (encodeCommand i).toNat) = exec i s)

/-- A step at any other access line makes that one access; with no line pending nothing happens (R244, R245); a line
no host can write is refused (log entry 7). -/
def Obligations.StepMakesOneAccess : Prop :=
  (∀ (s : State) (a : Access) (rest : List Line), s.pending = .access a :: rest → a.wellFormed = true →
    step s = performAccess a (s.setPending rest)) ∧
  (∀ s : State, s.pending = [] → step s = .next s) ∧
  (∀ (s : State) (line : Line) (rest : List Line), s.pending = line :: rest → line.wellFormed = false →
    step s = .refused .illFormedLine)

/-- LOADBUF of k bytes takes k + 1 steps: IBUF[i] holds byte i for i < k, IN_LEN is k, all else stays (R93). -/
def Obligations.LoadBufLoads : Prop :=
  ∀ (s : State) (bytes : List Byte) (rest : List Line), s.pending = .loadBuf bytes :: rest → bytes.length ≤ 28 →
    ∃ t, stepTimes (bytes.length + 1) s = .next t ∧
      (∀ a, t.ibuf.read a = if a < bytes.length then bytes[a]? else s.ibuf.read a) ∧
      t.inLen.toNat = bytes.length ∧
      t = { s with ibuf := t.ibuf, inLen := t.inLen, pending := rest }

/-- SETHDR writes its fields one a step, in the order written (R93). -/
def Obligations.SetHdrWritesInOrder : Prop :=
  ∀ (s : State) (fields : List FieldValue) (rest : List Line), s.pending = .setHdr fields :: rest → fields ≠ [] →
    stepTimes fields.length s =
      .next ((fields.foldl (fun u fv => u.writeHdr fv.field fv.value) s).setPending rest)

/-- COPYOUT of n = OUT_LEN bytes takes 2·n + 2 steps: IBUF[0 .. n) equals OBUF[0 .. n), IN_LEN is n, and the block's other
registers and bytes stay (R93). -/
def Obligations.CopyOutCopies : Prop :=
  ∀ (s : State) (rest : List Line), s.pending = .copyOut :: rest → s.outLen.toNat ≤ 28 →
    (∀ a < s.outLen.toNat, s.obuf.read a ≠ none) →
    ∃ t, stepTimes (2 * s.outLen.toNat + 2) s = .next t ∧
      (∀ a, t.ibuf.read a = if a < s.outLen.toNat then s.obuf.read a else s.ibuf.read a) ∧
      t.inLen.toNat = s.outLen.toNat ∧
      t = { s with ibuf := t.ibuf, inLen := t.inLen, pending := rest, reads := t.reads }

/-- IF reads its register and goes on with its line exactly when bits hi to lo of the value equal v (R93). -/
def Obligations.IfBranchesOnBits : Prop :=
  ∀ (s : State) (r : Reg) (hi lo v : Nat) (line : Line) (rest : List Line) (x : Data),
    s.pending = .ifBits r hi lo v line :: rest → (Line.ifBits r hi lo v line).wellFormed = true →
    readReg r s = .ok x →
    step s = .next ((s.pushRead x).setPending
      (if x.toNat / 2 ^ lo % 2 ^ (hi - lo + 1) = v then line :: rest else rest))

/-- The register map: each mapped register's number and width, and which numbers are unmapped (R22). -/
def Obligations.RegisterMap : Prop :=
  Reg.mapped.map Reg.number =
    [0x00, 0x01, 0x02, 0x03, 0x04, 0x10, 0x11, 0x12, 0x13, 0x14, 0x15, 0x16, 0x17, 0x18, 0x19, 0x1A, 0x1B, 0x1C, 0x1D] ∧
  Reg.mapped.map Reg.width = [8, 16, 32, 5, 6, 3, 1, 1, 1, 1, 1, 16, 1, 1, 4, 4, 64, 64, 64] ∧
  (∀ r ∈ Reg.mapped, Reg.ofNumber r.number = r) ∧
  (∀ n : BitVec 8, (Reg.ofNumber n).number = n ∧ (Reg.ofNumber n).wellFormed = true) ∧
  (∀ n : BitVec 8, Reg.ofNumber n = .unmapped n ↔
    (0x05 ≤ n.toNat ∧ n.toNat ≤ 0x0F) ∨ (0x1E ≤ n.toNat ∧ n.toNat ≤ 0xFF))

/-- A host read of each register returns its whole value and changes nothing else; an unwritten header field is a model
fault (R22, R23, R208; the value's place is log entry 2). -/
def Obligations.HostReadsRegisters : Prop :=
  ∀ s : State,
    performAccess (.rd .cmd) s = .next (s.pushRead 0) ∧
    performAccess (.rd .status) s = .next (s.pushRead (s.status.setWidth 64)) ∧
    performAccess (.rd .inLen) s = .next (s.pushRead (s.inLen.setWidth 64)) ∧
    performAccess (.rd .outLen) s = .next (s.pushRead (s.outLen.setWidth 64)) ∧
    (∀ f, s.marks.get f = true → performAccess (.rd (.hdr f)) s = .next (s.pushRead ((s.hdr.get f).setWidth 64))) ∧
    (∀ f, s.marks.get f = false → performAccess (.rd (.hdr f)) s = .fault (.unwrittenRead (.hdr f))) ∧
    (∀ n, performAccess (.rd (.unmapped n)) s = .next (s.pushRead 0))

/-- A host write of IN_LEN or a header field stores the value, sets that field's mark and changes nothing else; a write
of a read-only register or an unmapped number is ignored (R22, R31, R34, R49). -/
def Obligations.HostWritesRegisters : Prop :=
  ∀ s : State,
    (∀ n, performAccess (.wr .inLen n) s = .next { s with inLen := n }) ∧
    (∀ (f : HdrField) (v : BitVec f.width), ∃ t, performAccess (.wr (.hdr f) v) s = .next t ∧
      t.hdr.get f = v ∧ t.marks.get f = true ∧
      (∀ g, g ≠ f → t.hdr.get g = s.hdr.get g ∧ t.marks.get g = s.marks.get g) ∧
      t = { s with hdr := t.hdr, marks := t.marks }) ∧
    (∀ v, performAccess (.wr .status v) s = .next s) ∧ (∀ v, performAccess (.wr .outLen v) s = .next s) ∧
    (∀ v, performAccess (.wr .rawSize v) s = .next s) ∧ (∀ n v, performAccess (.wr (.unmapped n) v) s = .next s)

/-- R190: a read of RAW_SIZE gives 4 + 2·ENTITY_LEN + TSN_LEN as the registers stand, or a model fault. -/
def Obligations.RawSizeView : Prop :=
  ∀ s : State,
    (s.marks.get .entityLen = true → s.marks.get .tsnLen = true →
      ∃ v : Data, performAccess (.rd .rawSize) s = .next (s.pushRead v) ∧
        v.toNat = 4 + 2 * s.hdr.entityLen.toNat + s.hdr.tsnLen.toNat ∧ v.toNat ≤ 49 ∧
        (1 ≤ s.hdr.entityLen.toNat → s.hdr.entityLen.toNat ≤ 8 → 1 ≤ s.hdr.tsnLen.toNat →
          s.hdr.tsnLen.toNat ≤ 8 → 7 ≤ v.toNat ∧ v.toNat ≤ 28)) ∧
    (s.marks.get .entityLen = false ∨ s.marks.get .tsnLen = false →
      ∃ f, (f = .entityLen ∨ f = .tsnLen) ∧ s.marks.get f = false ∧
        performAccess (.rd .rawSize) s = .fault (.unwrittenRead (.hdr f)))

/-- Host accesses to buffer bytes: a written byte reads back, an unwritten one is a model fault, offsets 28 to 31 read 0
and ignore writes, a write to OBUF is ignored, and a write to IBUF changes that byte alone (R60, R64, R66). -/
def Obligations.HostByteAccesses : Prop :=
  ∀ (s : State) (o : BitVec 5),
    (∀ b, 28 ≤ o.toNat → performAccess (.rdb b o) s = .next (s.pushRead 0)) ∧
    (∀ b v, o.toNat < 28 → (s.buffer b).read o.toNat = some v →
      performAccess (.rdb b o) s = .next (s.pushRead (v.setWidth 64))) ∧
    (∀ b, o.toNat < 28 → (s.buffer b).read o.toNat = none →
      performAccess (.rdb b o) s = .fault (.unwrittenRead (bufferElement b o.toNat))) ∧
    (∀ v, performAccess (.wrb .obuf o v) s = .next s) ∧
    (∀ v, 28 ≤ o.toNat → performAccess (.wrb .ibuf o v) s = .next s) ∧
    (∀ v, o.toNat < 28 → ∃ t, performAccess (.wrb .ibuf o v) s = .next t ∧
      (∀ a, t.ibuf.read a = if a = o.toNat then some v else s.ibuf.read a) ∧ t = s.setIbuf t.ibuf)

/-- Reads have no side effects, and a second read returns the same value (R70). -/
def Obligations.ReadsHaveNoSideEffect : Prop :=
  ∀ (a : Access) (s t : State), (∃ r, a = .rd r) ∨ (∃ b o, a = .rdb b o) → performAccess a s = .next t →
    ∃ v, t = s.pushRead v ∧ performAccess a t = .next (t.pushRead v)

/-- R134: a 3-bit length code c becomes the width c + 1, from 1 to 8. -/
def Obligations.LengthCodeDecodes : Prop :=
  ∀ c : BitVec 3, (lenDecode c).toNat = c.toNat + 1 ∧ 1 ≤ (lenDecode c).toNat ∧ (lenDecode c).toNat ≤ 8

/-- R135: a width w in 1 to 8 becomes the code w − 1; for any other width ENCODE faults instead. -/
def Obligations.LengthCodeEncodes : Prop :=
  (∀ (w : BitVec 4) (legal : widthLegal w), (lenEncode w legal).toNat + 1 = w.toNat) ∧
  (∀ s : State, s.status.fault = 0 → (∀ f, s.marks.get f = true) →
    s.hdr.entityLen.toNat = 0 ∨ 8 < s.hdr.entityLen.toNat ∨ s.hdr.tsnLen.toNat = 0 ∨ 8 < s.hdr.tsnLen.toNat →
    ∃ t, exec .encode s = .next t ∧ FaultRaised s 0b10 t)

/-- R140 and R141: DATA_LEN is the raw length less 4 mod 2^16 when CRC_FLAG = 1, and back; unchanged when it is 0. -/
def Obligations.CrcAdjustsByFour : Prop :=
  (∀ raw : BitVec 16, (crcAdjustDecode raw 1).toNat = (raw.toNat + 2 ^ 16 - 4) % 2 ^ 16 ∧
    crcAdjustDecode raw 0 = raw) ∧
  (∀ dlen : BitVec 16, (crcAdjustEncode dlen 1).toNat = (dlen.toNat + 4) % 2 ^ 16 ∧
    crcAdjustEncode dlen 0 = dlen)

/-- R142: the two adjustments undo each other for each CRC_FLAG, and the adjustment is 4. -/
def Obligations.CrcAdjustmentsInverse : Prop :=
  (∀ (crc : Bit) (x : BitVec 16), crcAdjustDecode (crcAdjustEncode x crc) crc = x ∧
    crcAdjustEncode (crcAdjustDecode x crc) crc = x) ∧
  (∀ x : BitVec 16, crcAdjustEncode x 1 - x = 4)

/-- R130 and R131: the bits of byte 0, both ways. -/
def Obligations.ByteZeroLayout : Prop :=
  (∀ b : Byte, (bfUnpack0 b).version.toNat = b.toNat / 32 ∧ (bfUnpack0 b).pduType.toNat = b.toNat / 16 % 2 ∧
    (bfUnpack0 b).direction.toNat = b.toNat / 8 % 2 ∧ (bfUnpack0 b).txMode.toNat = b.toNat / 4 % 2 ∧
    (bfUnpack0 b).crcFlag.toNat = b.toNat / 2 % 2 ∧ (bfUnpack0 b).largeFile.toNat = b.toNat % 2) ∧
  (∀ f : Byte0, (bfPack0 f).toNat = f.version.toNat * 32 + f.pduType.toNat * 16 + f.direction.toNat * 8 +
    f.txMode.toNat * 4 + f.crcFlag.toNat * 2 + f.largeFile.toNat)

/-- R132 and R133: the bits of byte 3 and the widths they hold, both ways. -/
def Obligations.ByteThreeLayout : Prop :=
  (∀ b : Byte, (bfUnpack3 b).segCtrl.toNat = b.toNat / 128 ∧
    (bfUnpack3 b).entityLen.toNat = b.toNat / 16 % 8 + 1 ∧ (bfUnpack3 b).segMeta.toNat = b.toNat / 8 % 2 ∧
    (bfUnpack3 b).tsnLen.toNat = b.toNat % 8 + 1) ∧
  (∀ (f : Byte3) (he : widthLegal f.entityLen) (ht : widthLegal f.tsnLen),
    (bfPack3 f he ht).toNat = f.segCtrl.toNat * 128 + (f.entityLen.toNat - 1) * 16 + f.segMeta.toNat * 8 +
      (f.tsnLen.toNat - 1))

/-- R136: packing and unpacking are inverse bijections, for byte 0 and for byte 3. -/
def Obligations.ByteMapsBijective : Prop :=
  (∀ b : Byte, bfPack0 (bfUnpack0 b) = b) ∧ (∀ f : Byte0, bfUnpack0 (bfPack0 f) = f) ∧
  (∀ b : Byte, ∃ he ht, bfPack3 (bfUnpack3 b) he ht = b) ∧
  (∀ (f : Byte3) (he : widthLegal f.entityLen) (ht : widthLegal f.tsnLen), bfUnpack3 (bfPack3 f he ht) = f)

/-- R110: BE_EXTRACT of written bytes is their big-endian sum, below 2^(8·w); at an unwritten byte it is a model fault
naming the first one. -/
def Obligations.BeExtractIsSum : Prop :=
  (∀ (m : Memory) (a w : Nat) (b : Nat → Byte), Holds m a w b →
    beExtract m a w = .ok (bigEndian b a w) ∧ bigEndian b a w < 2 ^ (8 * w)) ∧
  (∀ (m : Memory) (a w k : Nat), k < w → m.read (a + k) = none → (∀ j < k, m.read (a + j) ≠ none) →
    beExtract m a w = .error (.modelFault (.unwrittenRead (.ibuf (a + k)))))

/-- R112: a field that ends past IN_LEN is the truncation error whatever its bytes; one inside it is BE_EXTRACT and the
offset just past the field, or a model fault at its first unwritten byte. -/
def Obligations.BeExtractChecksBounds : Prop :=
  ∀ (n : BitVec 32) (m : Memory) (a w : Nat),
    (n.toNat < a + w → beExtractChecked n m a w = .error (.raised .truncatedVariableField)) ∧
    (a + w ≤ n.toNat → ∀ b, Holds m a w b → beExtractChecked n m a w = .ok (bigEndian b a w, a + w) ∧
      bigEndian b a w < 2 ^ (8 * w)) ∧
    (a + w ≤ n.toNat → ∀ k < w, m.read (a + k) = none → (∀ j < k, m.read (a + j) ≠ none) →
      beExtractChecked n m a w = .error (.modelFault (.unwrittenRead (.ibuf (a + k)))))

/-- R116: BE_PACK writes byte (v >> 8·(w − 1 − k)) & 0xFF at offset a + k for each k < w, and no other byte. -/
def Obligations.BePackWritesBytes : Prop :=
  ∀ (m : Memory) (a w v : Nat) (fits : packFits w v),
    (∀ k < w, (bePack m a w v fits).read (a + k) = some (BitVec.ofNat 8 (v / 2 ^ (8 * (w - 1 - k)) % 256))) ∧
    (∀ o, o < a ∨ a + w ≤ o → (bePack m a w v fits).read o = m.read o)

/-- R119: extracting what BE_PACK wrote gives the value, and packing what BE_EXTRACT gave reproduces the bytes. -/
def Obligations.BigEndianInverse : Prop :=
  (∀ (m : Memory) (a w v : Nat) (fits : packFits w v), beExtract (bePack m a w v fits) a w = .ok v) ∧
  (∀ (m m' : Memory) (a w : Nat) (b : Nat → Byte), 1 ≤ w → w ≤ 8 → Holds m a w b →
    ∃ v, ∃ fits : packFits w v, beExtract m a w = .ok v ∧ Holds (bePack m' a w v fits) a w b)

/-- R160: NOP writes nothing, faulted or not. -/
def Obligations.NopDoesNothing : Prop :=
  ∀ s : State, exec .nop s = .next s

/-- R207: a reserved code written to CMD while FAULT = 0 raises ILLEGAL_CMD; from reset STATUS becomes 0x0180. -/
def Obligations.ReservedCodeRaisesIllegalCmd : Prop :=
  ∀ c : Byte, 3 ≤ c.toNat →
    (∀ s : State, s.status.fault = 0 → ∃ t, performAccess (.wr .cmd c) s = .next t ∧ FaultRaised s 0b01 t) ∧
    performAccess (.wr .cmd c) State.reset = .next (State.reset.setStatus 0x0180)

/-- Each of the seven reserved rows completes, by raising ILLEGAL_CMD and changing nothing else (R82, R206, R207). -/
def Obligations.ReservedRowsComplete : Prop :=
  ∀ s : State, s.status.fault = 0 →
    (∃ t, exec .reserved03 s = .next t ∧ FaultRaised s 0b01 t) ∧
    (∀ low, ∃ t, exec (.reserved04 low) s = .next t ∧ FaultRaised s 0b01 t) ∧
    (∀ low, ∃ t, exec (.reserved08 low) s = .next t ∧ FaultRaised s 0b01 t) ∧
    (∀ low, ∃ t, exec (.reserved10 low) s = .next t ∧ FaultRaised s 0b01 t) ∧
    (∀ low, ∃ t, exec (.reserved20 low) s = .next t ∧ FaultRaised s 0b01 t) ∧
    (∀ low, ∃ t, exec (.reserved40 low) s = .next t ∧ FaultRaised s 0b01 t) ∧
    (∀ low, ∃ t, exec (.reserved80 low) s = .next t ∧ FaultRaised s 0b01 t)

/-- R201: with IN_LEN below 7, DECODE reports BUFFER_TOO_SMALL whatever IBUF holds; STATUS becomes 0x0016. -/
def Obligations.DecodeReportsTooSmall : Prop :=
  ∀ s : State, s.status.fault = 0 → s.inLen.toNat < 7 →
    ∃ t, exec .decode s = .next t ∧ t = s.setStatus t.status ∧ Reported s.status t.status 0b10 0b01 0b01 ∧
      (StatusLegal s.status → t.status = 0x0016)

/-- R203: a variable field that ends past IN_LEN, every byte before it written, is reported as TRUNCATED_VARIABLE_FIELD,
whichever of the three it is; STATUS becomes 0x001E. -/
def Obligations.DecodeReportsTruncation : Prop :=
  ∀ (s : State) (b : Nat → Byte), s.status.fault = 0 → 7 ≤ s.inLen.toNat →
    (s.inLen.toNat < 4 + entityWidth b ∧ Holds s.ibuf 0 4 b) ∨
    (s.inLen.toNat < 4 + entityWidth b + tsnWidth b ∧ Holds s.ibuf 0 (4 + entityWidth b) b) ∨
    (s.inLen.toNat < headerSize b ∧ Holds s.ibuf 0 (4 + entityWidth b + tsnWidth b) b) →
    ∃ t, exec .decode s = .next t ∧ t = s.setStatus t.status ∧ Reported s.status t.status 0b10 0b11 0b01 ∧
      (StatusLegal s.status → t.status = 0x001E)

/-- DECODE of a written header inside the buffer succeeds: each field is its wire bits, the widths are the codes plus 1,
DATA_LEN is the adjusted raw length, the variable fields are big-endian, all 14 marks are set, OK is reported, and nothing
else changes (R85 to R88, R92, R170). -/
def Obligations.DecodeReadsHeader : Prop :=
  ∀ (s : State) (b : Nat → Byte), s.status.fault = 0 → headerSize b ≤ s.inLen.toNat →
    Holds s.ibuf 0 (headerSize b) b →
    ∃ t, exec .decode s = .next t ∧
      t.hdr.version.toNat = (b 0).toNat / 32 ∧ t.hdr.pduType.toNat = (b 0).toNat / 16 % 2 ∧
      t.hdr.direction.toNat = (b 0).toNat / 8 % 2 ∧ t.hdr.txMode.toNat = (b 0).toNat / 4 % 2 ∧
      t.hdr.crcFlag.toNat = (b 0).toNat / 2 % 2 ∧ t.hdr.largeFile.toNat = (b 0).toNat % 2 ∧
      t.hdr.dataLen.toNat =
        (if (b 0).toNat / 2 % 2 = 1 then ((b 1).toNat * 256 + (b 2).toNat + 2 ^ 16 - 4) % 2 ^ 16
          else (b 1).toNat * 256 + (b 2).toNat) ∧
      t.hdr.segCtrl.toNat = (b 3).toNat / 128 ∧ t.hdr.entityLen.toNat = entityWidth b ∧
      t.hdr.segMeta.toNat = (b 3).toNat / 8 % 2 ∧ t.hdr.tsnLen.toNat = tsnWidth b ∧
      t.hdr.srcEid.toNat = bigEndian b 4 (entityWidth b) ∧
      t.hdr.tsn.toNat = bigEndian b (4 + entityWidth b) (tsnWidth b) ∧
      t.hdr.dstEid.toNat = bigEndian b (4 + entityWidth b + tsnWidth b) (entityWidth b) ∧
      (∀ f, t.marks.get f = true) ∧ Reported s.status t.status 0b01 0b00 0b01 ∧
      (StatusLegal s.status → t.status = 0x0011) ∧
      t = { s with hdr := t.hdr, marks := t.marks, status := t.status }

/-- R171 and R200: DECODE writes no other register and no buffer byte on any path; when it reports a decode error it writes no
header field either, only RESULT, ERRCODE and LAST_CMD, and the block is not faulted. -/
def Obligations.DecodeAllOrNothing : Prop :=
  ∀ s t : State, s.status.fault = 0 → exec .decode s = .next t →
    t = { s with hdr := t.hdr, marks := t.marks, status := t.status } ∧ t.status.fault = 0 ∧
    (t.status.result = 0b10 → t.hdr = s.hdr ∧ t.marks = s.marks ∧
      ((s.inLen.toNat < 7 ∧ Reported s.status t.status 0b10 0b01 0b01) ∨
        (7 ≤ s.inLen.toNat ∧ Reported s.status t.status 0b10 0b11 0b01)))

/-- R172: a header DECODE writes meets the invariants of the source's data model, so an ENCODE right after it does not fault. -/
def Obligations.DecodedHeaderIsLegal : Prop :=
  ∀ s t : State, s.status.fault = 0 → exec .decode s = .next t → t.status.result = 0b01 →
    t.hdr.version.toNat ≤ 7 ∧ 1 ≤ t.hdr.entityLen.toNat ∧ t.hdr.entityLen.toNat ≤ 8 ∧ 1 ≤ t.hdr.tsnLen.toNat ∧
    t.hdr.tsnLen.toNat ≤ 8 ∧ t.hdr.srcEid.toNat < 2 ^ (8 * t.hdr.entityLen.toNat) ∧
    t.hdr.dstEid.toNat < 2 ^ (8 * t.hdr.entityLen.toNat) ∧ t.hdr.tsn.toNat < 2 ^ (8 * t.hdr.tsnLen.toNat) ∧
    ∃ u, exec .encode t = .next u ∧ u.status.fault = 0

/-- The version check never fires: no command makes ERRCODE INVALID_VERSION, and DECODE's reading never raises it (R202). -/
def Obligations.InvalidVersionNeverReported : Prop :=
  (∀ (n : BitVec 32) (m : Memory), parseHeader n m ≠ .error (.raised .invalidVersion)) ∧
  (∀ (i : Instr) (s t : State), exec i s = .next t → t.status.errCode = 0b10 → s.status.errCode = 0b10)

/-- R211: the order of checks. A faulted block ignores the write; a reserved code faults; DECODE and ENCODE take the first
event in pseudocode order. For DECODE: the length check, then each byte in turn, each variable field's bound before its bytes;
`k` is the first unwritten offset. For ENCODE: an unwritten field before the precondition. -/
def Obligations.FirstEventIsTaken : Prop :=
  (∀ (s : State) (c : Byte), s.status.fault = 1 → performAccess (.wr .cmd c) s = .next s) ∧
  (∀ (s : State) (c : Byte), s.status.fault = 0 → 3 ≤ c.toNat →
    ∃ t, performAccess (.wr .cmd c) s = .next t ∧ FaultRaised s 0b01 t) ∧
  (∀ s : State, s.status.fault = 0 → s.inLen.toNat < 7 →
    ∃ t, exec .decode s = .next t ∧ Reported s.status t.status 0b10 0b01 0b01) ∧
  (∀ (s : State) (b : Nat → Byte) (k : Nat), s.status.fault = 0 → 7 ≤ s.inLen.toNat → Holds s.ibuf 0 k b →
    s.ibuf.read k = none →
    (k < 4 → exec .decode s = .fault (.unwrittenRead (.ibuf k))) ∧
    (4 ≤ k → s.inLen.toNat < 4 + entityWidth b →
      ∃ t, exec .decode s = .next t ∧ Reported s.status t.status 0b10 0b11 0b01) ∧
    (4 ≤ k → k < 4 + entityWidth b → 4 + entityWidth b ≤ s.inLen.toNat →
      exec .decode s = .fault (.unwrittenRead (.ibuf k))) ∧
    (4 + entityWidth b ≤ k → s.inLen.toNat < 4 + entityWidth b + tsnWidth b →
      ∃ t, exec .decode s = .next t ∧ Reported s.status t.status 0b10 0b11 0b01) ∧
    (4 + entityWidth b ≤ k → k < 4 + entityWidth b + tsnWidth b → 4 + entityWidth b + tsnWidth b ≤ s.inLen.toNat →
      exec .decode s = .fault (.unwrittenRead (.ibuf k))) ∧
    (4 + entityWidth b + tsnWidth b ≤ k → s.inLen.toNat < headerSize b →
      ∃ t, exec .decode s = .next t ∧ Reported s.status t.status 0b10 0b11 0b01) ∧
    (4 + entityWidth b + tsnWidth b ≤ k → k < headerSize b → headerSize b ≤ s.inLen.toNat →
      exec .decode s = .fault (.unwrittenRead (.ibuf k)))) ∧
  (∀ s : State, s.status.fault = 0 → (∃ f, s.marks.get f = false) →
    ∃ f, s.marks.get f = false ∧ exec .encode s = .fault (.unwrittenRead (.hdr f))) ∧
  (∀ s : State, s.status.fault = 0 → (∀ f, s.marks.get f = true) → ¬ s.hdr.Legal →
    ∃ t, exec .encode s = .next t ∧ FaultRaised s 0b10 t)

/-- DECODE looks at no IBUF byte at or past min(IN_LEN, 28): changing those changes nothing else (R61, R62). -/
def Obligations.DecodeReadsOnlyOfferedBytes : Prop :=
  ∀ (s : State) (m : Memory), (∀ a, a < s.inLen.toNat → a < 28 → m.read a = s.ibuf.read a) →
    exec .decode (s.setIbuf m) = mapNext (fun t => t.setIbuf m) (exec .decode s)

/-- R63: a buffer longer than the header decodes the same as its first RAW_SIZE bytes. -/
def Obligations.SurplusBytesIgnored : Prop :=
  ∀ (s t : State) (m : Memory) (n : BitVec 32), s.status.fault = 0 → exec .decode s = .next t →
    t.status.result = 0b01 →
    4 + 2 * t.hdr.entityLen.toNat + t.hdr.tsnLen.toNat ≤ n.toNat →
    (∀ a < 4 + 2 * t.hdr.entityLen.toNat + t.hdr.tsnLen.toNat, m.read a = s.ibuf.read a) →
    exec .decode { s with ibuf := m, inLen := n } = .next { t with ibuf := m, inLen := n }

/-- R191 and R89: after a DECODE that succeeds, RAW_SIZE reads 7 + 2·ce + ct for the length codes ce and ct of byte 3, a value
within the buffer, and the bytes DECODE consumed are the written bytes below it. -/
def Obligations.RawSizeIsBytesConsumed : Prop :=
  ∀ s t : State, s.status.fault = 0 → exec .decode s = .next t → t.status.result = 0b01 →
    ∃ (b3 : Byte) (v : Data), s.ibuf.read 3 = some b3 ∧ performAccess (.rd .rawSize) t = .next (t.pushRead v) ∧
      v.toNat = 7 + 2 * (b3.toNat / 16 % 8) + b3.toNat % 8 ∧ 7 ≤ v.toNat ∧ v.toNat ≤ 28 ∧
      v.toNat ≤ s.inLen.toNat ∧ (∀ a < v.toNat, s.ibuf.read a ≠ none) ∧
      ∀ n : BitVec 32, n.toNat < v.toNat → ∃ u, exec .decode (s.setInLen n) = .next u ∧ u.status.result = 0b10

/-- R181 and R183: ENCODE of a written, legal header writes its wire bytes to OBUF[0 .. 4 + 2·L + T) and no other OBUF byte,
OUT_LEN and RAW_SIZE become that length, OK is reported, and nothing else changes. -/
def Obligations.EncodeWritesHeader : Prop :=
  ∀ (s : State) (L T real : Nat), s.status.fault = 0 → (∀ f, s.marks.get f = true) → s.hdr.Legal →
    L = s.hdr.entityLen.toNat → T = s.hdr.tsnLen.toNat →
    real = (if s.hdr.crcFlag = 1 then (s.hdr.dataLen.toNat + 4) % 2 ^ 16 else s.hdr.dataLen.toNat) →
    ∃ t, exec .encode s = .next t ∧
      t.obuf.read 0 = some (BitVec.ofNat 8 (s.hdr.version.toNat * 32 + s.hdr.pduType.toNat * 16 +
        s.hdr.direction.toNat * 8 + s.hdr.txMode.toNat * 4 + s.hdr.crcFlag.toNat * 2 + s.hdr.largeFile.toNat)) ∧
      t.obuf.read 1 = some (BitVec.ofNat 8 (real / 256)) ∧ t.obuf.read 2 = some (BitVec.ofNat 8 (real % 256)) ∧
      t.obuf.read 3 = some (BitVec.ofNat 8 (s.hdr.segCtrl.toNat * 128 + (L - 1) * 16 + s.hdr.segMeta.toNat * 8 +
        (T - 1))) ∧
      (∀ k < L, t.obuf.read (4 + k) = some (BitVec.ofNat 8 (s.hdr.srcEid.toNat / 2 ^ (8 * (L - 1 - k)) % 256))) ∧
      (∀ k < T, t.obuf.read (4 + L + k) = some (BitVec.ofNat 8 (s.hdr.tsn.toNat / 2 ^ (8 * (T - 1 - k)) % 256))) ∧
      (∀ k < L, t.obuf.read (4 + L + T + k) =
        some (BitVec.ofNat 8 (s.hdr.dstEid.toNat / 2 ^ (8 * (L - 1 - k)) % 256))) ∧
      (∀ a, 4 + 2 * L + T ≤ a → t.obuf.read a = s.obuf.read a) ∧
      t.outLen.toNat = 4 + 2 * L + T ∧ 7 ≤ t.outLen.toNat ∧ t.outLen.toNat ≤ 28 ∧
      performAccess (.rd .rawSize) t = .next (t.pushRead (t.outLen.setWidth 64)) ∧
      Reported s.status t.status 0b01 0b00 0b10 ∧ (StatusLegal s.status → t.status = 0x0021) ∧
      t = { s with obuf := t.obuf, outLen := t.outLen, status := t.status }

/-- R182: ENCODE never writes HDR, IN_LEN or IBUF, and when it faults it writes neither OBUF nor OUT_LEN. -/
def Obligations.EncodeFrame : Prop :=
  ∀ s t : State, exec .encode s = .next t →
    t = { s with obuf := t.obuf, outLen := t.outLen, status := t.status } ∧
    (t.status.fault = 1 → t.obuf = s.obuf ∧ t.outLen = s.outLen)

/-- R209: a header that breaks any of the five invariants makes ENCODE raise ENC_PRECOND and write nothing else; from STATUS
0x0011 the result is 0x0291. -/
def Obligations.EncodeChecksPrecondition : Prop :=
  ∀ s : State, s.status.fault = 0 → (∀ f, s.marks.get f = true) →
    ¬ (1 ≤ s.hdr.entityLen.toNat ∧ s.hdr.entityLen.toNat ≤ 8) ∨
    ¬ (1 ≤ s.hdr.tsnLen.toNat ∧ s.hdr.tsnLen.toNat ≤ 8) ∨
    2 ^ (8 * s.hdr.entityLen.toNat) ≤ s.hdr.srcEid.toNat ∨
    2 ^ (8 * s.hdr.tsnLen.toNat) ≤ s.hdr.tsn.toNat ∨
    2 ^ (8 * s.hdr.entityLen.toNat) ≤ s.hdr.dstEid.toNat →
    ∃ t, exec .encode s = .next t ∧ FaultRaised s 0b10 t ∧ (s.status = 0x0011 → t.status = 0x0291)

/-- R185: ENCODE a legal header, put OBUF[0 .. OUT_LEN) in IBUF and OUT_LEN in IN_LEN, and DECODE succeeds with the same header. -/
def Obligations.HeaderRoundTrip : Prop :=
  ∀ s t : State, s.status.fault = 0 → (∀ f, s.marks.get f = true) → s.hdr.Legal → exec .encode s = .next t →
    ∀ m : Memory, (∀ a < t.outLen.toNat, m.read a = t.obuf.read a) →
      ∃ u, exec .decode { t with ibuf := m, inLen := t.outLen.setWidth 32 } = .next u ∧
        u.status.result = 0b01 ∧ u.hdr = s.hdr

/-- R186: when DECODE succeeds and ENCODE is the next command, ENCODE succeeds, OUT_LEN = RAW_SIZE, and OBUF[0 .. RAW_SIZE) equals
IBUF[0 .. RAW_SIZE) byte for byte; OBUF past that stays. -/
def Obligations.ByteRoundTrip : Prop :=
  ∀ s t : State, s.status.fault = 0 → exec .decode s = .next t → t.status.result = 0b01 →
    ∃ u, exec .encode t = .next u ∧ u.status.result = 0b01 ∧ u.status.fault = 0 ∧
      u.outLen.toNat = 4 + 2 * t.hdr.entityLen.toNat + t.hdr.tsnLen.toNat ∧
      performAccess (.rd .rawSize) u = .next (u.pushRead (u.outLen.setWidth 64)) ∧
      (∀ a < u.outLen.toNat, u.obuf.read a = s.ibuf.read a ∧ u.obuf.read a ≠ none) ∧
      (∀ a, u.outLen.toNat ≤ a → u.obuf.read a = s.obuf.read a)

/-- DECODE's outcome and what it writes depend on IN_LEN and the offered IBUF bytes alone, ENCODE's on HDR and its marks alone
(R187). -/
def Obligations.CommandsArePure : Prop :=
  (∀ s₁ s₂ : State, s₁.status.fault = 0 → s₂.status.fault = 0 → s₁.inLen = s₂.inLen →
    (∀ a, a < s₁.inLen.toNat → a < 28 → s₁.ibuf.read a = s₂.ibuf.read a) →
    (∀ r, exec .decode s₁ = .fault r → exec .decode s₂ = .fault r) ∧
    (∀ t₁, exec .decode s₁ = .next t₁ → ∃ t₂, exec .decode s₂ = .next t₂ ∧
      t₂.status.result = t₁.status.result ∧ t₂.status.errCode = t₁.status.errCode ∧
      t₂.status.lastCmd = t₁.status.lastCmd ∧
      (t₁.status.result = 0b01 → t₂.hdr = t₁.hdr ∧ t₂.marks = t₁.marks))) ∧
  (∀ s₁ s₂ : State, s₁.status.fault = 0 → s₂.status.fault = 0 → s₁.hdr = s₂.hdr → s₁.marks = s₂.marks →
    (∀ r, exec .encode s₁ = .fault r → exec .encode s₂ = .fault r) ∧
    (∀ t₁, exec .encode s₁ = .next t₁ → ∃ t₂, exec .encode s₂ = .next t₂ ∧
      t₂.status.fault = t₁.status.fault ∧
      (t₁.status.fault = 1 → t₂.status.faultCause = t₁.status.faultCause) ∧
      (t₁.status.fault = 0 → t₂.status.result = t₁.status.result ∧ t₂.status.errCode = t₁.status.errCode ∧
        t₂.status.lastCmd = t₁.status.lastCmd ∧ t₂.outLen = t₁.outLen ∧
        ∀ a < t₁.outLen.toNat, t₂.obuf.read a = t₁.obuf.read a)))

/-- R210: while FAULT = 1 every write to CMD is ignored, every other access does what it does with any other STATUS, and only reset
leaves the faulted state. -/
def Obligations.FaultedBlockIgnoresCommands : Prop :=
  ∀ s : State, s.status.fault = 1 →
    (∀ c, performAccess (.wr .cmd c) s = .next s) ∧ (∀ i, exec i s = .next s) ∧
    (∀ (a : Access) (st : Status), (∀ c, a ≠ .wr .cmd c) → a ≠ .rd .status → a ≠ .reset →
      performAccess a (s.setStatus st) = mapNext (fun t => t.setStatus st) (performAccess a s)) ∧
    (∀ (a : Access) (t : State), performAccess a s = .next t → a ≠ .reset → t.status = s.status) ∧
    (∀ t, performAccess .reset s = .next t → t.status.fault = 0)

/-- A step from a faulted state leaves STATUS as it is, and every register and OBUF byte but those a host write reaches, unless the
access it makes is a reset, which clears it (R28, R206). -/
def Obligations.FaultStaysUntilReset : Prop :=
  ∀ s t : State, s.status.fault = 1 → step s = .next t →
    (t.status = s.status ∧ t.outLen = s.outLen ∧ t.obuf = s.obuf) ∨
    ((∃ rest, s.pending = .access .reset :: rest) ∧ t.status = 0x0000)

/-- What each command leaves alone: IN_LEN, IBUF and the host's side always; HDR and its marks but by DECODE; OBUF and OUT_LEN but by
ENCODE; RESULT, ERRCODE and LAST_CMD but by DECODE and ENCODE; FAULT and FAULT_CAUSE by DECODE (R25 to R32, R60, R64, R170, R182). -/
def Obligations.CommandFrames : Prop :=
  ∀ (i : Instr) (s t : State), exec i s = .next t →
    t.inLen = s.inLen ∧ t.ibuf = s.ibuf ∧ t.pending = s.pending ∧ t.reads = s.reads ∧
    (i ≠ .decode → t.hdr = s.hdr ∧ t.marks = s.marks) ∧
    (i ≠ .encode → t.obuf = s.obuf ∧ t.outLen = s.outLen) ∧
    (i ≠ .decode → i ≠ .encode → t.status.result = s.status.result ∧ t.status.errCode = s.status.errCode ∧
      t.status.lastCmd = s.status.lastCmd) ∧
    (i = .decode → t.status.fault = s.status.fault ∧ t.status.faultCause = s.status.faultCause) ∧
    t.status.reserved6 = s.status.reserved6 ∧ t.status.reservedHigh = s.status.reservedHigh

/-- The registers only a command writes: a host access other than a write to CMD or a reset leaves STATUS, OUT_LEN and OBUF (R22,
R24, R32, R64). -/
def Obligations.HostCannotWriteResults : Prop :=
  ∀ (a : Access) (s t : State), performAccess a s = .next t → (∀ c, a ≠ .wr .cmd c) → a ≠ .reset →
    t.status = s.status ∧ t.outLen = s.outLen ∧ t.obuf = s.obuf

/-- No access but a reset clears a written mark (R49). -/
def Obligations.MarksOnlyGrow : Prop :=
  ∀ (a : Access) (s t : State), performAccess a s = .next t → a ≠ .reset →
    (∀ f, s.marks.get f = true → t.marks.get f = true) ∧
    (∀ o, s.ibuf.read o ≠ none → t.ibuf.read o ≠ none) ∧ (∀ o, s.obuf.read o ≠ none → t.obuf.read o ≠ none)

/-- The only model fault is a read of an element whose mark is clear, and it names one (R49, R208). -/
def Obligations.OnlyUnwrittenReadsFault : Prop :=
  ∀ (a : Access) (s : State) (r : Fault), performAccess a s = .fault r → ∃ e, r = .unwrittenRead e ∧ Unwritten s e

/-- No command and no access is refused; a step refuses only a line no host can write. -/
def Obligations.NothingIsRefused : Prop :=
  (∀ (i : Instr) (s : State) (r : Refusal), exec i s ≠ .refused r) ∧
  (∀ (a : Access) (s : State) (r : Refusal), performAccess a s ≠ .refused r) ∧
  (∀ (s : State) (r : Refusal), step s = .refused r →
    r = .illFormedLine ∧ ∃ line rest, s.pending = line :: rest ∧ line.wellFormed = false)

/-- R230: reset sets STATUS, IN_LEN and OUT_LEN to 0 and clears every written mark; the host's side stays. -/
def Obligations.ResetClears : Prop :=
  ∀ s : State, ∃ t, performAccess .reset s = .next t ∧ t.status = 0x0000 ∧ t.inLen = 0 ∧ t.outLen = 0 ∧
    (∀ f, t.marks.get f = false) ∧ (∀ a, t.ibuf.read a = none) ∧ (∀ a, t.obuf.read a = none) ∧
    t.pending = s.pending ∧ t.reads = s.reads

/-- R233: what the host sees right after reset. -/
def Obligations.AfterReset : Prop :=
  exec .decode State.reset = .next (State.reset.setStatus 0x0016) ∧
  (∃ f, exec .encode State.reset = .fault (.unwrittenRead (.hdr f))) ∧
  (∃ f, performAccess (.rd .rawSize) State.reset = .fault (.unwrittenRead (.hdr f))) ∧
  (∀ f, performAccess (.rd (.hdr f)) State.reset = .fault (.unwrittenRead (.hdr f))) ∧
  (∀ (b : Buf) (o : BitVec 5), o.toNat < 28 →
    performAccess (.rdb b o) State.reset = .fault (.unwrittenRead (bufferElement b o.toNat))) ∧
  performAccess (.rd .status) State.reset = .next (State.reset.pushRead 0x0000) ∧
  performAccess (.rd .inLen) State.reset = .next (State.reset.pushRead 0) ∧
  performAccess (.rd .outLen) State.reset = .next (State.reset.pushRead 0)

/-- The invariant holds at reset. -/
def Obligations.InvHoldsAtReset : Prop :=
  Inv State.reset

/-- R30: no step makes STATUS hold a reserved bit or an encoding never produced; its fields keep fitting together (R25 to R29). -/
def Obligations.StatusStaysLegal : Prop :=
  ∀ s t : State, StatusLegal s.status → step s = .next t → StatusLegal t.status

/-- Every step keeps both buffers in canonical form (the model's representation, log entry 4). -/
def Obligations.BuffersStayCanonical : Prop :=
  ∀ s t : State, BuffersCanonical s → step s = .next t → BuffersCanonical t

/-- Every step keeps OUT_LEN 0 or an encoded header's length with all its OBUF bytes written, not 0 while ENCODE is the last
command (R32, R181). -/
def Obligations.OutputStaysPresent : Prop :=
  ∀ s t : State, OutputPresent s → step s = .next t → OutputPresent t

/-- Every step keeps: once a success is reported, all header fields are written (R49, R170, R180). -/
def Obligations.HeaderStaysPresent : Prop :=
  ∀ s t : State, HeaderPresent s → step s = .next t → HeaderPresent t

/-- Every step keeps 0 behind every clear mark (the model's choice, log entry 3). -/
def Obligations.UnwrittenStaysBlank : Prop :=
  ∀ s t : State, UnwrittenBlank s → step s = .next t → UnwrittenBlank t

end
end

