-- ==== Sys2Proof/Laws/State.lean ====
section
/-! SUPPORT. Each field of State after each named update: unchanged, or the value the update writes. -/

namespace Sys2Proof.Machine

@[simp] theorem State.setStatus_status (s : State) (st : Status) : (s.setStatus st).status = st := rfl
@[simp] theorem State.setStatus_inLen (s : State) (st : Status) : (s.setStatus st).inLen = s.inLen := rfl
@[simp] theorem State.setStatus_outLen (s : State) (st : Status) : (s.setStatus st).outLen = s.outLen := rfl
@[simp] theorem State.setStatus_hdr (s : State) (st : Status) : (s.setStatus st).hdr = s.hdr := rfl
@[simp] theorem State.setStatus_marks (s : State) (st : Status) : (s.setStatus st).marks = s.marks := rfl
@[simp] theorem State.setStatus_ibuf (s : State) (st : Status) : (s.setStatus st).ibuf = s.ibuf := rfl
@[simp] theorem State.setStatus_obuf (s : State) (st : Status) : (s.setStatus st).obuf = s.obuf := rfl
@[simp] theorem State.setStatus_pending (s : State) (st : Status) : (s.setStatus st).pending = s.pending := rfl
@[simp] theorem State.setStatus_reads (s : State) (st : Status) : (s.setStatus st).reads = s.reads := rfl

@[simp] theorem State.setInLen_status (s : State) (n : BitVec 32) : (s.setInLen n).status = s.status := rfl
@[simp] theorem State.setInLen_inLen (s : State) (n : BitVec 32) : (s.setInLen n).inLen = n := rfl
@[simp] theorem State.setInLen_outLen (s : State) (n : BitVec 32) : (s.setInLen n).outLen = s.outLen := rfl
@[simp] theorem State.setInLen_hdr (s : State) (n : BitVec 32) : (s.setInLen n).hdr = s.hdr := rfl
@[simp] theorem State.setInLen_marks (s : State) (n : BitVec 32) : (s.setInLen n).marks = s.marks := rfl
@[simp] theorem State.setInLen_ibuf (s : State) (n : BitVec 32) : (s.setInLen n).ibuf = s.ibuf := rfl
@[simp] theorem State.setInLen_obuf (s : State) (n : BitVec 32) : (s.setInLen n).obuf = s.obuf := rfl
@[simp] theorem State.setInLen_pending (s : State) (n : BitVec 32) : (s.setInLen n).pending = s.pending := rfl
@[simp] theorem State.setInLen_reads (s : State) (n : BitVec 32) : (s.setInLen n).reads = s.reads := rfl

@[simp] theorem State.setOutLen_status (s : State) (n : BitVec 5) : (s.setOutLen n).status = s.status := rfl
@[simp] theorem State.setOutLen_inLen (s : State) (n : BitVec 5) : (s.setOutLen n).inLen = s.inLen := rfl
@[simp] theorem State.setOutLen_outLen (s : State) (n : BitVec 5) : (s.setOutLen n).outLen = n := rfl
@[simp] theorem State.setOutLen_hdr (s : State) (n : BitVec 5) : (s.setOutLen n).hdr = s.hdr := rfl
@[simp] theorem State.setOutLen_marks (s : State) (n : BitVec 5) : (s.setOutLen n).marks = s.marks := rfl
@[simp] theorem State.setOutLen_ibuf (s : State) (n : BitVec 5) : (s.setOutLen n).ibuf = s.ibuf := rfl
@[simp] theorem State.setOutLen_obuf (s : State) (n : BitVec 5) : (s.setOutLen n).obuf = s.obuf := rfl
@[simp] theorem State.setOutLen_pending (s : State) (n : BitVec 5) : (s.setOutLen n).pending = s.pending := rfl
@[simp] theorem State.setOutLen_reads (s : State) (n : BitVec 5) : (s.setOutLen n).reads = s.reads := rfl

@[simp] theorem State.writeHdr_status (s : State) (f : HdrField) (v : BitVec f.width) : (s.writeHdr f v).status = s.status := rfl
@[simp] theorem State.writeHdr_inLen (s : State) (f : HdrField) (v : BitVec f.width) : (s.writeHdr f v).inLen = s.inLen := rfl
@[simp] theorem State.writeHdr_outLen (s : State) (f : HdrField) (v : BitVec f.width) : (s.writeHdr f v).outLen = s.outLen := rfl
@[simp] theorem State.writeHdr_hdr (s : State) (f : HdrField) (v : BitVec f.width) : (s.writeHdr f v).hdr = s.hdr.set f v := rfl
@[simp] theorem State.writeHdr_marks (s : State) (f : HdrField) (v : BitVec f.width) : (s.writeHdr f v).marks = s.marks.set f := rfl
@[simp] theorem State.writeHdr_ibuf (s : State) (f : HdrField) (v : BitVec f.width) : (s.writeHdr f v).ibuf = s.ibuf := rfl
@[simp] theorem State.writeHdr_obuf (s : State) (f : HdrField) (v : BitVec f.width) : (s.writeHdr f v).obuf = s.obuf := rfl
@[simp] theorem State.writeHdr_pending (s : State) (f : HdrField) (v : BitVec f.width) : (s.writeHdr f v).pending = s.pending := rfl
@[simp] theorem State.writeHdr_reads (s : State) (f : HdrField) (v : BitVec f.width) : (s.writeHdr f v).reads = s.reads := rfl

@[simp] theorem State.commitHdr_status (s : State) (h : Hdr) : (s.commitHdr h).status = s.status := rfl
@[simp] theorem State.commitHdr_inLen (s : State) (h : Hdr) : (s.commitHdr h).inLen = s.inLen := rfl
@[simp] theorem State.commitHdr_outLen (s : State) (h : Hdr) : (s.commitHdr h).outLen = s.outLen := rfl
@[simp] theorem State.commitHdr_hdr (s : State) (h : Hdr) : (s.commitHdr h).hdr = h := rfl
@[simp] theorem State.commitHdr_marks (s : State) (h : Hdr) : (s.commitHdr h).marks = HdrMarks.fill true := rfl
@[simp] theorem State.commitHdr_ibuf (s : State) (h : Hdr) : (s.commitHdr h).ibuf = s.ibuf := rfl
@[simp] theorem State.commitHdr_obuf (s : State) (h : Hdr) : (s.commitHdr h).obuf = s.obuf := rfl
@[simp] theorem State.commitHdr_pending (s : State) (h : Hdr) : (s.commitHdr h).pending = s.pending := rfl
@[simp] theorem State.commitHdr_reads (s : State) (h : Hdr) : (s.commitHdr h).reads = s.reads := rfl

@[simp] theorem State.setIbuf_status (s : State) (m : Memory) : (s.setIbuf m).status = s.status := rfl
@[simp] theorem State.setIbuf_inLen (s : State) (m : Memory) : (s.setIbuf m).inLen = s.inLen := rfl
@[simp] theorem State.setIbuf_outLen (s : State) (m : Memory) : (s.setIbuf m).outLen = s.outLen := rfl
@[simp] theorem State.setIbuf_hdr (s : State) (m : Memory) : (s.setIbuf m).hdr = s.hdr := rfl
@[simp] theorem State.setIbuf_marks (s : State) (m : Memory) : (s.setIbuf m).marks = s.marks := rfl
@[simp] theorem State.setIbuf_ibuf (s : State) (m : Memory) : (s.setIbuf m).ibuf = m := rfl
@[simp] theorem State.setIbuf_obuf (s : State) (m : Memory) : (s.setIbuf m).obuf = s.obuf := rfl
@[simp] theorem State.setIbuf_pending (s : State) (m : Memory) : (s.setIbuf m).pending = s.pending := rfl
@[simp] theorem State.setIbuf_reads (s : State) (m : Memory) : (s.setIbuf m).reads = s.reads := rfl

@[simp] theorem State.setObuf_status (s : State) (m : Memory) : (s.setObuf m).status = s.status := rfl
@[simp] theorem State.setObuf_inLen (s : State) (m : Memory) : (s.setObuf m).inLen = s.inLen := rfl
@[simp] theorem State.setObuf_outLen (s : State) (m : Memory) : (s.setObuf m).outLen = s.outLen := rfl
@[simp] theorem State.setObuf_hdr (s : State) (m : Memory) : (s.setObuf m).hdr = s.hdr := rfl
@[simp] theorem State.setObuf_marks (s : State) (m : Memory) : (s.setObuf m).marks = s.marks := rfl
@[simp] theorem State.setObuf_ibuf (s : State) (m : Memory) : (s.setObuf m).ibuf = s.ibuf := rfl
@[simp] theorem State.setObuf_obuf (s : State) (m : Memory) : (s.setObuf m).obuf = m := rfl
@[simp] theorem State.setObuf_pending (s : State) (m : Memory) : (s.setObuf m).pending = s.pending := rfl
@[simp] theorem State.setObuf_reads (s : State) (m : Memory) : (s.setObuf m).reads = s.reads := rfl

@[simp] theorem State.setPending_status (s : State) (p : List Line) : (s.setPending p).status = s.status := rfl
@[simp] theorem State.setPending_inLen (s : State) (p : List Line) : (s.setPending p).inLen = s.inLen := rfl
@[simp] theorem State.setPending_outLen (s : State) (p : List Line) : (s.setPending p).outLen = s.outLen := rfl
@[simp] theorem State.setPending_hdr (s : State) (p : List Line) : (s.setPending p).hdr = s.hdr := rfl
@[simp] theorem State.setPending_marks (s : State) (p : List Line) : (s.setPending p).marks = s.marks := rfl
@[simp] theorem State.setPending_ibuf (s : State) (p : List Line) : (s.setPending p).ibuf = s.ibuf := rfl
@[simp] theorem State.setPending_obuf (s : State) (p : List Line) : (s.setPending p).obuf = s.obuf := rfl
@[simp] theorem State.setPending_pending (s : State) (p : List Line) : (s.setPending p).pending = p := rfl
@[simp] theorem State.setPending_reads (s : State) (p : List Line) : (s.setPending p).reads = s.reads := rfl

@[simp] theorem State.pushRead_status (s : State) (v : Data) : (s.pushRead v).status = s.status := rfl
@[simp] theorem State.pushRead_inLen (s : State) (v : Data) : (s.pushRead v).inLen = s.inLen := rfl
@[simp] theorem State.pushRead_outLen (s : State) (v : Data) : (s.pushRead v).outLen = s.outLen := rfl
@[simp] theorem State.pushRead_hdr (s : State) (v : Data) : (s.pushRead v).hdr = s.hdr := rfl
@[simp] theorem State.pushRead_marks (s : State) (v : Data) : (s.pushRead v).marks = s.marks := rfl
@[simp] theorem State.pushRead_ibuf (s : State) (v : Data) : (s.pushRead v).ibuf = s.ibuf := rfl
@[simp] theorem State.pushRead_obuf (s : State) (v : Data) : (s.pushRead v).obuf = s.obuf := rfl
@[simp] theorem State.pushRead_pending (s : State) (v : Data) : (s.pushRead v).pending = s.pending := rfl
@[simp] theorem State.pushRead_reads (s : State) (v : Data) : (s.pushRead v).reads = v :: s.reads := rfl

@[simp] theorem State.reportOk_status (s : State) (cmd : BitVec 2) : (s.reportOk cmd).status = s.status.report resultOk errNone cmd := rfl
@[simp] theorem State.reportOk_inLen (s : State) (cmd : BitVec 2) : (s.reportOk cmd).inLen = s.inLen := rfl
@[simp] theorem State.reportOk_outLen (s : State) (cmd : BitVec 2) : (s.reportOk cmd).outLen = s.outLen := rfl
@[simp] theorem State.reportOk_hdr (s : State) (cmd : BitVec 2) : (s.reportOk cmd).hdr = s.hdr := rfl
@[simp] theorem State.reportOk_marks (s : State) (cmd : BitVec 2) : (s.reportOk cmd).marks = s.marks := rfl
@[simp] theorem State.reportOk_ibuf (s : State) (cmd : BitVec 2) : (s.reportOk cmd).ibuf = s.ibuf := rfl
@[simp] theorem State.reportOk_obuf (s : State) (cmd : BitVec 2) : (s.reportOk cmd).obuf = s.obuf := rfl
@[simp] theorem State.reportOk_pending (s : State) (cmd : BitVec 2) : (s.reportOk cmd).pending = s.pending := rfl
@[simp] theorem State.reportOk_reads (s : State) (cmd : BitVec 2) : (s.reportOk cmd).reads = s.reads := rfl

@[simp] theorem State.raiseDecodeError_status (s : State) (e : DecodeError) : (s.raiseDecodeError e).status = s.status.report resultDecodeError e.code lastDecode := rfl
@[simp] theorem State.raiseDecodeError_inLen (s : State) (e : DecodeError) : (s.raiseDecodeError e).inLen = s.inLen := rfl
@[simp] theorem State.raiseDecodeError_outLen (s : State) (e : DecodeError) : (s.raiseDecodeError e).outLen = s.outLen := rfl
@[simp] theorem State.raiseDecodeError_hdr (s : State) (e : DecodeError) : (s.raiseDecodeError e).hdr = s.hdr := rfl
@[simp] theorem State.raiseDecodeError_marks (s : State) (e : DecodeError) : (s.raiseDecodeError e).marks = s.marks := rfl
@[simp] theorem State.raiseDecodeError_ibuf (s : State) (e : DecodeError) : (s.raiseDecodeError e).ibuf = s.ibuf := rfl
@[simp] theorem State.raiseDecodeError_obuf (s : State) (e : DecodeError) : (s.raiseDecodeError e).obuf = s.obuf := rfl
@[simp] theorem State.raiseDecodeError_pending (s : State) (e : DecodeError) : (s.raiseDecodeError e).pending = s.pending := rfl
@[simp] theorem State.raiseDecodeError_reads (s : State) (e : DecodeError) : (s.raiseDecodeError e).reads = s.reads := rfl

@[simp] theorem State.raiseFault_status (s : State) (c : FaultCause) : (s.raiseFault c).status = s.status.recordFault c := rfl
@[simp] theorem State.raiseFault_inLen (s : State) (c : FaultCause) : (s.raiseFault c).inLen = s.inLen := rfl
@[simp] theorem State.raiseFault_outLen (s : State) (c : FaultCause) : (s.raiseFault c).outLen = s.outLen := rfl
@[simp] theorem State.raiseFault_hdr (s : State) (c : FaultCause) : (s.raiseFault c).hdr = s.hdr := rfl
@[simp] theorem State.raiseFault_marks (s : State) (c : FaultCause) : (s.raiseFault c).marks = s.marks := rfl
@[simp] theorem State.raiseFault_ibuf (s : State) (c : FaultCause) : (s.raiseFault c).ibuf = s.ibuf := rfl
@[simp] theorem State.raiseFault_obuf (s : State) (c : FaultCause) : (s.raiseFault c).obuf = s.obuf := rfl
@[simp] theorem State.raiseFault_pending (s : State) (c : FaultCause) : (s.raiseFault c).pending = s.pending := rfl
@[simp] theorem State.raiseFault_reads (s : State) (c : FaultCause) : (s.raiseFault c).reads = s.reads := rfl

@[simp] theorem State.resetBlock_status (s : State) : s.resetBlock.status = 0 := rfl
@[simp] theorem State.resetBlock_inLen (s : State) : s.resetBlock.inLen = 0 := rfl
@[simp] theorem State.resetBlock_outLen (s : State) : s.resetBlock.outLen = 0 := rfl
@[simp] theorem State.resetBlock_hdr (s : State) : s.resetBlock.hdr = Hdr.blank := rfl
@[simp] theorem State.resetBlock_marks (s : State) : s.resetBlock.marks = HdrMarks.fill false := rfl
@[simp] theorem State.resetBlock_ibuf (s : State) : s.resetBlock.ibuf = [] := rfl
@[simp] theorem State.resetBlock_obuf (s : State) : s.resetBlock.obuf = [] := rfl
@[simp] theorem State.resetBlock_pending (s : State) : s.resetBlock.pending = s.pending := rfl
@[simp] theorem State.resetBlock_reads (s : State) : s.resetBlock.reads = s.reads := rfl

@[simp] theorem State.setPending_setPending (s : State) (p q : List Line) :
    (s.setPending p).setPending q = s.setPending q := rfl
@[simp] theorem State.setPending_self (s : State) : s.setPending s.pending = s := rfl
@[simp] theorem State.lastRead_pushRead (s : State) (v : Data) : (s.pushRead v).lastRead = v := rfl

end Sys2Proof.Machine
end

