-- ==== Sys2Proof/Laws/Memory.lean ====
section
/-! SUPPORT. The buffers: a read after a write, the canonical form every operation keeps, and what runs of bytes read and
write. -/

namespace Sys2Proof.Machine

theorem Memory.read_write_same (m : Memory) (a : Nat) (v : Byte) : (m.write a v).read a = some v := by
  induction m with
  | nil => simp [Memory.write, Memory.read]
  | cons c m ih =>
    obtain ⟨b, u⟩ := c
    simp only [Memory.write]
    split
    · simp [Memory.read]
    · split <;> simp [Memory.read, *]

theorem Memory.read_write_other (m : Memory) {a b : Nat} (v : Byte) (h : b ≠ a) :
    (m.write a v).read b = m.read b := by
  induction m with
  | nil => simp [Memory.write, Memory.read, h]
  | cons c m ih =>
    obtain ⟨d, u⟩ := c
    simp only [Memory.write]
    split
    · simp [Memory.read, h]
    · split <;> simp_all [Memory.read]

/-- A read after a write: the written offset reads the value, every other one reads as before. -/
theorem Memory.read_write (m : Memory) (a b : Nat) (v : Byte) :
    (m.write a v).read b = if b = a then some v else m.read b := by
  split
  · subst b; exact m.read_write_same a v
  · exact m.read_write_other v ‹_›

/-- A write never clears a written mark (R49). -/
theorem Memory.read_write_ne_none (m : Memory) (a b : Nat) (v : Byte) (h : m.read b ≠ none) :
    (m.write a v).read b ≠ none := by
  rw [Memory.read_write]; split <;> simp_all

theorem Memory.risingFrom_write {m : Memory} {lo a : Nat} (v : Byte) (h : Memory.risingFrom lo m = true)
    (hlo : lo ≤ a) (ha : a < Config.bufferSize) : Memory.risingFrom lo (m.write a v) = true := by
  induction m generalizing lo with
  | nil => simp [Memory.write, Memory.risingFrom, hlo, ha]
  | cons c m ih =>
    obtain ⟨b, u⟩ := c
    simp only [Memory.risingFrom, Bool.and_eq_true, decide_eq_true_eq] at h
    simp only [Memory.write]
    split
    · simp only [Memory.risingFrom, Bool.and_eq_true, decide_eq_true_eq]
      exact ⟨⟨hlo, ha⟩, ⟨by omega, h.1.2⟩, h.2⟩
    · split
      · subst b; simpa [Memory.risingFrom] using h
      · simp only [Memory.risingFrom, Bool.and_eq_true, decide_eq_true_eq]
        exact ⟨h.1, ih h.2 (by omega)⟩

/-- A write inside the buffer keeps the canonical form. -/
theorem Memory.wf_write {m : Memory} {a : Nat} (v : Byte) (h : m.wf = true) (ha : a < Config.bufferSize) :
    (m.write a v).wf = true :=
  Memory.risingFrom_write v h (Nat.zero_le a) ha

theorem Memory.wf_nil : Memory.wf [] = true := rfl

theorem Memory.wf_writeBytes {m : Memory} {a : Nat} (bs : List Byte) (h : m.wf = true)
    (ha : a + bs.length ≤ Config.bufferSize) : (m.writeBytes a bs).wf = true := by
  induction bs generalizing m a with
  | nil => exact h
  | cons b bs ih =>
    simp only [List.length_cons] at ha
    exact ih (m.wf_write b h (by omega)) (by omega)

/-- What a run of written bytes leaves at every offset. -/
theorem Memory.read_writeBytes (m : Memory) (a b : Nat) (bs : List Byte) :
    (m.writeBytes a bs).read b = if a ≤ b ∧ b < a + bs.length then bs[b - a]? else m.read b := by
  induction bs generalizing m a with
  | nil =>
    rw [if_neg (by simp)]; rfl
  | cons c bs ih =>
    simp only [Memory.writeBytes, ih, Memory.read_write, List.length_cons]
    rcases Nat.lt_trichotomy b a with h | h | h
    · rw [if_neg (by omega), if_neg (by omega), if_neg (by omega)]
    · subst h; simp
    · rw [if_neg (by omega : ¬ b = a)]
      split
      · rw [if_pos (by omega), show b - a = (b - (a + 1)) + 1 by omega, List.getElem?_cons_succ]
      · rw [if_neg (by omega)]

/-- A run of reads succeeds exactly when every byte is written, and gives the bytes in order. -/
theorem Memory.readBytes_eq_ok {m : Memory} {a n : Nat} {bs : List Byte} :
    m.readBytes a n = .ok bs ↔ bs.length = n ∧ ∀ k < n, m.read (a + k) = bs[k]? := by
  induction n generalizing a bs with
  | zero =>
    simp only [Memory.readBytes, Except.ok.injEq, Nat.not_lt_zero, false_imp_iff, implies_true, and_true]
    exact ⟨fun h => by simp [← h], fun h => (List.length_eq_zero_iff.mp h).symm⟩
  | succ n ih =>
    simp only [Memory.readBytes]
    cases hb : m.read a with
    | none =>
      simp only [reduceCtorEq, false_iff, not_and]
      intro hl hk
      have := hk 0 (by omega)
      rw [Nat.add_zero, hb] at this
      have := List.getElem?_eq_none_iff.mp this.symm
      omega
    | some b =>
      cases hr : m.readBytes (a + 1) n with
      | error o =>
        simp only [reduceCtorEq, false_iff, not_and]
        intro hl hk
        obtain ⟨c, cs, rfl⟩ : ∃ c cs, bs = c :: cs := by
          cases bs with
          | nil => simp at hl
          | cons c cs => exact ⟨c, cs, rfl⟩
        have : m.readBytes (a + 1) n = .ok cs := ih.mpr ⟨by simpa using hl, fun k hk' => by
          simpa [Nat.add_assoc, Nat.add_comm 1] using hk (k + 1) (by omega)⟩
        rw [hr] at this; cases this
      | ok cs =>
        obtain ⟨hl, hk⟩ := ih.mp hr
        simp only [Except.ok.injEq]
        constructor
        · rintro rfl
          refine ⟨by simp [hl], fun k hk' => ?_⟩
          cases k with
          | zero => simpa using hb
          | succ k => simpa [Nat.add_assoc, Nat.add_comm 1] using hk k (by omega)
        · rintro ⟨hl', hk'⟩
          obtain ⟨d, ds, rfl⟩ : ∃ d ds, bs = d :: ds := by
            cases bs with
            | nil => simp at hl'
            | cons d ds => exact ⟨d, ds, rfl⟩
          have h0 : some b = some d := by simpa [hb] using hk' 0 (by omega)
          have hds : m.readBytes (a + 1) n = .ok ds := ih.mpr ⟨by simpa using hl', fun k hlt => by
            simpa [Nat.add_assoc, Nat.add_comm 1] using hk' (k + 1) (by omega)⟩
          rw [hr] at hds
          cases hds; cases h0; rfl

/-- A run of reads ends at its first unwritten byte. -/
theorem Memory.readBytes_eq_error {m : Memory} {a n o : Nat} :
    m.readBytes a n = .error o ↔
      a ≤ o ∧ o < a + n ∧ m.read o = none ∧ ∀ b, a ≤ b → b < o → m.read b ≠ none := by
  induction n generalizing a with
  | zero => simp only [Memory.readBytes, reduceCtorEq, false_iff]; omega
  | succ n ih =>
    simp only [Memory.readBytes]
    cases hb : m.read a with
    | none =>
      simp only [Except.error.injEq]
      constructor
      · rintro rfl; exact ⟨Nat.le_refl _, by omega, hb, fun b h1 h2 => by omega⟩
      · rintro ⟨h1, -, -, h4⟩
        rcases Nat.lt_or_ge a o with h | h
        · exact absurd hb (h4 a (Nat.le_refl _) h)
        · omega
    | some v =>
      have key : (match m.readBytes (a + 1) n with
          | .error o => (.error o : Except Nat (List Byte))
          | .ok bs => .ok (v :: bs)) = .error o ↔ m.readBytes (a + 1) n = .error o := by
        cases m.readBytes (a + 1) n <;> simp
      refine key.trans (ih.trans ?_)
      constructor
      · rintro ⟨h1, h2, h3, h4⟩
        refine ⟨by omega, by omega, h3, fun b hb1 hb2 => ?_⟩
        rcases Nat.eq_or_lt_of_le hb1 with h | h
        · subst h; simp [hb]
        · exact h4 b h hb2
      · rintro ⟨h1, h2, h3, h4⟩
        have : a ≠ o := by rintro rfl; simp [hb] at h3
        exact ⟨by omega, by omega, h3, fun b hb1 hb2 => h4 b (by omega) hb2⟩

end Sys2Proof.Machine
end

