-- ==== Sys2Proof/Laws/Status.lean ====
section
/-! SUPPORT. The bits and fields of STATUS after each of the two ways the block writes it (R24). -/

namespace Sys2Proof.Machine

section
variable (st : Status) (r e c : BitVec 2) (f : FaultCause)

/-- Every bit of STATUS after a report. -/
theorem Status.getLsbD_report (i : Nat) :
    (st.report r e c).getLsbD i =
      if i < 2 then r.getLsbD i else if i < 4 then e.getLsbD (i - 2)
      else if i < 6 then c.getLsbD (i - 4) else st.getLsbD i := by
  refine (BitVec.getLsbD_append (x := st.extractLsb' 6 10 ++ c ++ e) (y := r)).trans ?_
  simp only [BitVec.getLsbD_append, BitVec.getLsbD_extractLsb']
  split_ifs
  all_goals first
    | rfl
    | omega
    | skip
  rw [show 6 + (i - 2 - 2 - 2) = i by omega]
  by_cases h : i < 16
  · simp [show i - 2 - 2 - 2 < 10 by omega]
  · simp [BitVec.getLsbD_of_ge st i (by omega)]

/-- Every bit of STATUS after a fault is recorded. -/
theorem Status.getLsbD_recordFault (i : Nat) :
    (st.recordFault f).getLsbD i =
      if i = 7 then true else if i = 8 ∨ i = 9 then f.code.getLsbD (i - 8) else st.getLsbD i := by
  refine (BitVec.getLsbD_append (x := st.extractLsb' 10 6 ++ f.code ++ 1#1) (y := st.extractLsb' 0 7)).trans ?_
  simp only [BitVec.getLsbD_append, BitVec.getLsbD_extractLsb']
  split_ifs
  all_goals first
    | omega
    | (simp_all; done)
    | skip
  · rw [show i - 7 - 1 = i - 8 by omega]
  · rw [show 10 + (i - 7 - 1 - 2) = i by omega]
    by_cases h : i < 16
    · simp [show i - 7 - 1 - 2 < 6 by omega]
    · simp [BitVec.getLsbD_of_ge st i (by omega)]

@[simp] theorem Status.report_result : (st.report r e c).result = r :=
  BitVec.eq_of_getLsbD_eq fun i hi => by
    simp [Status.result, Status.getLsbD_report, hi]

@[simp] theorem Status.report_errCode : (st.report r e c).errCode = e :=
  BitVec.eq_of_getLsbD_eq fun i hi => by
    simp [Status.errCode, Status.getLsbD_report, hi, show 2 + i < 4 by omega, show 1 < 2 + i by omega]

@[simp] theorem Status.report_lastCmd : (st.report r e c).lastCmd = c :=
  BitVec.eq_of_getLsbD_eq fun i hi => by
    simp [Status.lastCmd, Status.getLsbD_report, hi, show ¬ 4 + i < 2 by omega,
      show 4 + i < 6 by omega]

/-- A report changes no field above LAST_CMD. -/
theorem Status.report_extract_high {k n : Nat} (hk : 6 ≤ k) :
    (st.report r e c).extractLsb' k n = st.extractLsb' k n :=
  BitVec.eq_of_getLsbD_eq fun i hi => by
    simp [BitVec.getLsbD_extractLsb', Status.getLsbD_report, show ¬ k + i < 2 by omega,
      show ¬ k + i < 4 by omega, show ¬ k + i < 6 by omega]

@[simp] theorem Status.report_reserved6 : (st.report r e c).reserved6 = st.reserved6 :=
  Status.report_extract_high st r e c (by decide)

@[simp] theorem Status.report_fault : (st.report r e c).fault = st.fault :=
  Status.report_extract_high st r e c (by decide)

@[simp] theorem Status.report_faultCause : (st.report r e c).faultCause = st.faultCause :=
  Status.report_extract_high st r e c (by decide)

@[simp] theorem Status.report_reservedHigh : (st.report r e c).reservedHigh = st.reservedHigh :=
  Status.report_extract_high st r e c (by decide)

/-- Recording a fault changes no field below FAULT and none above FAULT_CAUSE. -/
theorem Status.recordFault_extract_outside {k n : Nat} (h : k + n ≤ 7 ∨ 10 ≤ k) :
    (st.recordFault f).extractLsb' k n = st.extractLsb' k n :=
  BitVec.eq_of_getLsbD_eq fun i hi => by
    simp [BitVec.getLsbD_extractLsb', Status.getLsbD_recordFault, show ¬ k + i = 7 by omega,
      show ¬ k + i = 8 by omega, show ¬ k + i = 9 by omega]

@[simp] theorem Status.recordFault_result : (st.recordFault f).result = st.result :=
  Status.recordFault_extract_outside st f (by decide)

@[simp] theorem Status.recordFault_errCode : (st.recordFault f).errCode = st.errCode :=
  Status.recordFault_extract_outside st f (by decide)

@[simp] theorem Status.recordFault_lastCmd : (st.recordFault f).lastCmd = st.lastCmd :=
  Status.recordFault_extract_outside st f (by decide)

@[simp] theorem Status.recordFault_reserved6 : (st.recordFault f).reserved6 = st.reserved6 :=
  Status.recordFault_extract_outside st f (by decide)

@[simp] theorem Status.recordFault_reservedHigh : (st.recordFault f).reservedHigh = st.reservedHigh :=
  Status.recordFault_extract_outside st f (by decide)

@[simp] theorem Status.recordFault_fault : (st.recordFault f).fault = 1 :=
  BitVec.eq_of_getLsbD_eq fun i hi => by
    obtain rfl : i = 0 := by omega
    simp [Status.fault, Status.getLsbD_recordFault]

@[simp] theorem Status.recordFault_faultCause : (st.recordFault f).faultCause = f.code :=
  BitVec.eq_of_getLsbD_eq fun i hi => by
    simp [Status.faultCause, Status.getLsbD_recordFault, hi,
      show ¬ 8 + i = 7 by omega, show i = 0 ∨ 8 + i = 9 by omega]

/-- STATUS is known once all its fields are. -/
theorem Status.ext_fields {a b : Status} (h0 : a.result = b.result) (h1 : a.errCode = b.errCode)
    (h2 : a.lastCmd = b.lastCmd) (h3 : a.reserved6 = b.reserved6) (h4 : a.fault = b.fault)
    (h5 : a.faultCause = b.faultCause) (h6 : a.reservedHigh = b.reservedHigh) : a = b := by
  have bit {k n : Nat} (h : a.extractLsb' k n = b.extractLsb' k n) (i : Nat) (h1 : k ≤ i) (h2 : i < k + n) :
      a.getLsbD i = b.getLsbD i := by
    have := congrArg (fun x => x.getLsbD (i - k)) h
    simpa [BitVec.getLsbD_extractLsb', show i - k < n by omega, show k + (i - k) = i by omega] using this
  refine BitVec.eq_of_getLsbD_eq fun i hi => ?_
  rcases Nat.lt_or_ge i 2 with h | h
  · exact bit h0 i (by omega) (by omega)
  rcases Nat.lt_or_ge i 4 with h | h
  · exact bit h1 i (by omega) (by omega)
  rcases Nat.lt_or_ge i 6 with h | h
  · exact bit h2 i (by omega) (by omega)
  rcases Nat.lt_or_ge i 7 with h | h
  · exact bit h3 i (by omega) (by omega)
  rcases Nat.lt_or_ge i 8 with h | h
  · exact bit h4 i (by omega) (by omega)
  rcases Nat.lt_or_ge i 10 with h | h
  · exact bit h5 i (by omega) (by omega)
  · exact bit h6 i (by omega) (by omega)

end

theorem State.faulted_eq_false {s : State} : s.faulted = false ↔ s.status.fault = 0 := by
  unfold State.faulted
  generalize s.status.fault = b
  revert b; decide

theorem State.faulted_eq_true {s : State} : s.faulted = true ↔ s.status.fault = 1 := by
  simp [State.faulted]

end Sys2Proof.Machine
end

