-- ==== Sys2Proof/Laws/Header.lean ====
section
/-! SUPPORT. The header registers and their marks, the field codec and the big-endian unit: one lemma for what each shared
operation does. -/

namespace Sys2Proof.Machine

@[simp] theorem Hdr.get_set_same (h : Hdr) (f : HdrField) (v : BitVec f.width) : (h.set f v).get f = v := by
  cases f <;> rfl

theorem Hdr.get_set_other (h : Hdr) {f g : HdrField} (v : BitVec f.width) (hne : g ≠ f) :
    (h.set f v).get g = h.get g := by
  cases f <;> cases g <;> first | rfl | exact absurd rfl hne

theorem HdrMarks.get_set (k : HdrMarks) (f g : HdrField) : (k.set f).get g = (k.get g || g == f) := by
  cases f <;> cases g <;> simp [HdrMarks.get, HdrMarks.set]

@[simp] theorem HdrMarks.get_fill (b : Bool) (f : HdrField) : (HdrMarks.fill b).get f = b := by
  cases f <;> rfl

@[simp] theorem Hdr.get_blank (f : HdrField) : Hdr.blank.get f = 0 := by
  cases f <;> rfl

theorem hdrField_mem_all (f : HdrField) : f ∈ HdrField.all := by
  cases f <;> decide

/-- ENCODE's operand is there exactly when every field has been written. -/
theorem readHeader_eq_ok {s : State} {h : Hdr} :
    readHeader s = .ok h ↔ (∀ f, s.marks.get f = true) ∧ h = s.hdr := by
  unfold readHeader
  cases hc : s.marks.firstClear with
  | none =>
    have hall : ∀ f, s.marks.get f = true := fun f => by
      simpa using List.find?_eq_none.mp hc f (hdrField_mem_all f)
    simp [hall, eq_comm]
  | some f =>
    have : s.marks.get f = false := by simpa using List.find?_some hc
    simp only [reduceCtorEq, false_iff, not_and]
    intro hall; simp [hall f] at this

/-- The only other outcome names a field whose mark is clear. -/
theorem readHeader_eq_error {s : State} {r : Fault} (h : readHeader s = .error r) :
    ∃ f, s.marks.get f = false ∧ r = .unwrittenRead (.hdr f) := by
  unfold readHeader at h
  cases hc : s.marks.firstClear with
  | none => simp [hc] at h
  | some f =>
    simp only [hc, Except.error.injEq] at h
    exact ⟨f, by simpa using List.find?_some hc, h.symm⟩

/-- A decoded width is in range whatever the code. -/
theorem lenDecode_legal (c : BitVec 3) : widthLegal (lenDecode c) := by
  revert c; decide

theorem bfUnpack3_legal (b : Byte) : widthLegal (bfUnpack3 b).entityLen ∧ widthLegal (bfUnpack3 b).tsnLen :=
  ⟨lenDecode_legal _, lenDecode_legal _⟩

theorem beAppend_eq (v : Nat) (bs : List Byte) : beAppend v bs = v * 256 ^ bs.length + beValue bs := by
  unfold beValue
  induction bs generalizing v with
  | nil => simp [beAppend]
  | cons b bs ih => rw [beAppend, beAppend, ih, ih (0 * 256 + b.toNat), List.length_cons]; ring

/-- The first byte weighs most. -/
theorem beValue_cons (b : Byte) (bs : List Byte) :
    beValue (b :: bs) = b.toNat * 256 ^ bs.length + beValue bs := by
  rw [beValue, beAppend, beAppend_eq]; simp

theorem beValue_lt (bs : List Byte) : beValue bs < 2 ^ (8 * bs.length) := by
  rw [pow_mul]
  induction bs with
  | nil => simp [beValue, beAppend]
  | cons b bs ih =>
    rw [beValue_cons, List.length_cons, pow_succ]
    have := b.isLt
    norm_num at this ih ⊢
    nlinarith

@[simp] theorem beBytes_length (w v : Nat) : (beBytes w v).length = w := by
  induction w with
  | zero => rfl
  | succ w ih => simp [beBytes, ih]

/-- BE_EXTRACT answers the value of its bytes or a model fault at the first unwritten one. -/
theorem beExtract_eq_ok {m : Memory} {a w v : Nat} :
    beExtract m a w = .ok v ↔ ∃ bs, m.readBytes a w = .ok bs ∧ v = beValue bs := by
  unfold beExtract
  cases m.readBytes a w <;> simp [eq_comm]

theorem beExtract_eq_error {m : Memory} {a w : Nat} {r : DecodeStop} :
    beExtract m a w = .error r ↔
      ∃ o, m.readBytes a w = .error o ∧ r = .modelFault (.unwrittenRead (.ibuf o)) := by
  unfold beExtract
  cases m.readBytes a w <;> simp [eq_comm]

/-- BE_EXTRACT_CHECKED passes exactly when the field lies inside the buffer and is written. -/
theorem beExtractChecked_eq_ok {n : BitVec 32} {m : Memory} {a w v o : Nat} :
    beExtractChecked n m a w = .ok (v, o) ↔
      a + w ≤ n.toNat ∧ o = a + w ∧ ∃ bs, m.readBytes a w = .ok bs ∧ v = beValue bs := by
  unfold beExtractChecked
  split
  · simp; omega
  · cases h : beExtract m a w with
    | error r =>
      simp only [reduceCtorEq, false_iff, not_and]
      rintro - - ⟨bs, hb, rfl⟩
      rw [beExtract_eq_ok.mpr ⟨bs, hb, rfl⟩] at h; cases h
    | ok u =>
      obtain ⟨bs, hb, rfl⟩ := beExtract_eq_ok.mp h
      simp only [Except.ok.injEq, Prod.mk.injEq, hb]
      constructor
      · rintro ⟨rfl, rfl⟩; exact ⟨by omega, rfl, bs, rfl, rfl⟩
      · rintro ⟨-, rfl, _, rfl, rfl⟩; exact ⟨rfl, rfl⟩

/-- It stops with the truncation error before reading, or with a model fault inside the field. -/
theorem beExtractChecked_eq_error {n : BitVec 32} {m : Memory} {a w : Nat} {r : DecodeStop} :
    beExtractChecked n m a w = .error r ↔
      (n.toNat < a + w ∧ r = .raised .truncatedVariableField) ∨
      (a + w ≤ n.toNat ∧ ∃ o, m.readBytes a w = .error o ∧ r = .modelFault (.unwrittenRead (.ibuf o))) := by
  unfold beExtractChecked
  split
  · rename_i h
    simp only [Except.error.injEq, h, true_and, show ¬ a + w ≤ n.toNat by omega, false_and, or_false]
    exact eq_comm
  · rename_i h
    simp only [h, false_and, false_or, show a + w ≤ n.toNat by omega, true_and]
    cases hx : beExtract m a w with
    | ok u =>
      obtain ⟨bs, hb, rfl⟩ := beExtract_eq_ok.mp hx
      simp [hb]
    | error q =>
      rw [← beExtract_eq_error, hx]
      simp

end Sys2Proof.Machine
end

