-- ==== Sys2Proof/Laws/Commands.lean ====
section
/-! SUPPORT. What DECODE's reading, ENCODE's writing and each command can do, said once. -/

namespace Sys2Proof.Machine

theorem except_bind_eq_ok {ε α β : Type} {x : Except ε α} {f : α → Except ε β} {b : β} :
    (x >>= f) = .ok b ↔ ∃ a, x = .ok a ∧ f a = .ok b := by
  cases x <;> simp [bind, Except.bind]

theorem except_bind_eq_error {ε α β : Type} {x : Except ε α} {f : α → Except ε β} {e : ε} :
    (x >>= f) = .error e ↔ x = .error e ∨ ∃ a, x = .ok a ∧ f a = .error e := by
  cases x <;> simp [bind, Except.bind]

/-- The header DECODE forms from the bytes it reads (R170's commit). -/
def headerOf (b0 : Byte) (raw : List Byte) (b3 : Byte) (src tsn dst : List Byte) : Hdr :=
  { version := (bfUnpack0 b0).version, pduType := (bfUnpack0 b0).pduType,
    direction := (bfUnpack0 b0).direction, txMode := (bfUnpack0 b0).txMode,
    crcFlag := (bfUnpack0 b0).crcFlag, largeFile := (bfUnpack0 b0).largeFile,
    dataLen := crcAdjustDecode (BitVec.ofNat 16 (beValue raw)) (bfUnpack0 b0).crcFlag,
    segCtrl := (bfUnpack3 b3).segCtrl, segMeta := (bfUnpack3 b3).segMeta,
    entityLen := (bfUnpack3 b3).entityLen, tsnLen := (bfUnpack3 b3).tsnLen,
    srcEid := BitVec.ofNat 64 (beValue src), tsn := BitVec.ofNat 64 (beValue tsn),
    dstEid := BitVec.ofNat 64 (beValue dst) }

/-- The whole header lies inside the offered buffer and is written, and `h` is what its bytes say. -/
def ParsesTo (n : BitVec 32) (m : Memory) (h : Hdr) : Prop :=
  ∃ b0 raw b3 src tsn dst,
    m.read 0 = some b0 ∧ m.readBytes 1 2 = .ok raw ∧ m.read 3 = some b3 ∧
    m.readBytes 4 (bfUnpack3 b3).entityLen.toNat = .ok src ∧
    m.readBytes (4 + (bfUnpack3 b3).entityLen.toNat) (bfUnpack3 b3).tsnLen.toNat = .ok tsn ∧
    m.readBytes (4 + (bfUnpack3 b3).entityLen.toNat + (bfUnpack3 b3).tsnLen.toNat)
      (bfUnpack3 b3).entityLen.toNat = .ok dst ∧
    4 + (bfUnpack3 b3).entityLen.toNat + (bfUnpack3 b3).tsnLen.toNat + (bfUnpack3 b3).entityLen.toNat ≤ n.toNat ∧
    h = headerOf b0 raw b3 src tsn dst

theorem readInput_eq_ok {m : Memory} {a : Nat} {b : Byte} : readInput m a = .ok b ↔ m.read a = some b := by
  unfold readInput; cases m.read a <;> simp

theorem readInput_eq_error {m : Memory} {a : Nat} {r : DecodeStop} :
    readInput m a = .error r ↔ m.read a = none ∧ r = .modelFault (.unwrittenRead (.ibuf a)) := by
  unfold readInput; cases m.read a <;> simp [eq_comm]

/-- The version check never fires (R202). -/
theorem version_in_range (b : Byte) : ¬ 7 < (bfUnpack0 b).version.toNat := by
  have := (bfUnpack0 b).version.isLt; omega

/-- DECODE's reading succeeds exactly on a written header inside the buffer. -/
theorem parseHeader_eq_ok {n : BitVec 32} {m : Memory} {h : Hdr} :
    parseHeader n m = .ok h ↔ ParsesTo n m h := by
  unfold parseHeader ParsesTo
  constructor
  · split
    · intro h; cases h
    · simp only [except_bind_eq_ok]
      rintro ⟨b0, h0, hp⟩
      rw [if_neg (version_in_range b0)] at hp
      simp only [except_bind_eq_ok] at hp
      obtain ⟨raw, hr, b3, h3, ⟨src, o1⟩, hs, ⟨tsn, o2⟩, ht, ⟨dst, o3⟩, hd, he⟩ := hp
      obtain ⟨rawb, hr', rfl⟩ := beExtract_eq_ok.mp hr
      obtain ⟨-, rfl, srcb, hs', rfl⟩ := beExtractChecked_eq_ok.mp hs
      obtain ⟨-, rfl, tsnb, ht', rfl⟩ := beExtractChecked_eq_ok.mp ht
      obtain ⟨hl, rfl, dstb, hd', rfl⟩ := beExtractChecked_eq_ok.mp hd
      exact ⟨b0, rawb, b3, srcb, tsnb, dstb, readInput_eq_ok.mp h0, hr', readInput_eq_ok.mp h3, hs', ht', hd', hl,
        (Except.ok.inj he).symm⟩
  · rintro ⟨b0, raw, b3, src, tsn, dst, h0, hr, h3, hs, ht, hd, hl, rfl⟩
    have := (bfUnpack3_legal b3).1.1
    have := (bfUnpack3_legal b3).2.1
    simp only [Config.lenMin] at *
    rw [if_neg (by simp only [Config.minHeaderSize, Config.fixedPrefixSize]; omega)]
    simp only [except_bind_eq_ok]
    refine ⟨b0, readInput_eq_ok.mpr h0, ?_⟩
    rw [if_neg (version_in_range b0)]
    simp only [except_bind_eq_ok]
    exact ⟨_, beExtract_eq_ok.mpr ⟨raw, hr, rfl⟩, b3, readInput_eq_ok.mpr h3,
      (_, _), beExtractChecked_eq_ok.mpr ⟨by simp only [Config.fixedPrefixSize]; omega, rfl, src, hs, rfl⟩,
      (_, _), beExtractChecked_eq_ok.mpr ⟨by simp only [Config.fixedPrefixSize]; omega, rfl, tsn, ht, rfl⟩,
      (_, _), beExtractChecked_eq_ok.mpr ⟨by simp only [Config.fixedPrefixSize]; omega, rfl, dst, hd, rfl⟩, rfl⟩

/-- A DECODE that raises reports one of the two errors that can occur (R201 to R203). -/
theorem parseHeader_raises {n : BitVec 32} {m : Memory} {e : DecodeError}
    (h : parseHeader n m = .error (.raised e)) :
    (e = .bufferTooSmall ∧ n.toNat < 7) ∨ (e = .truncatedVariableField ∧ 7 ≤ n.toNat) := by
  unfold parseHeader at h
  split at h
  · rename_i hn
    exact .inl ⟨by simpa using h.symm, hn⟩
  · rename_i hn
    refine .inr ⟨?_, by simpa [Config.minHeaderSize, Config.fixedPrefixSize] using hn⟩
    simp only [except_bind_eq_error, readInput_eq_error] at h
    rcases h with ⟨-, h⟩ | ⟨b0, -, h⟩
    · cases h
    rw [if_neg (version_in_range b0)] at h
    simp only [except_bind_eq_error, readInput_eq_error, beExtract_eq_error, beExtractChecked_eq_error] at h
    rcases h with ⟨o, -, h⟩ | ⟨_, -, ⟨-, h⟩ | ⟨_, -, (⟨-, h⟩ | ⟨-, o, -, h⟩) | ⟨_, -, (⟨-, h⟩ | ⟨-, o, -, h⟩) |
      ⟨_, -, (⟨-, h⟩ | ⟨-, o, -, h⟩) | ⟨_, -, h⟩⟩⟩⟩⟩ <;> cases h <;> rfl

/-- What DECODE's model fault names: an unwritten byte inside the buffer and the window (R62, R208). -/
theorem parseHeader_modelFault {n : BitVec 32} {m : Memory} {r : Fault}
    (h : parseHeader n m = .error (.modelFault r)) :
    ∃ o, r = .unwrittenRead (.ibuf o) ∧ o < n.toNat ∧ o < 28 ∧ m.read o = none := by
  unfold parseHeader at h
  split at h
  · cases h
  · rename_i hn
    simp only [Config.minHeaderSize, Config.fixedPrefixSize] at hn
    simp only [except_bind_eq_error, readInput_eq_error] at h
    rcases h with ⟨h0, h⟩ | ⟨b0, -, h⟩
    · cases h; exact ⟨0, rfl, by omega, by omega, h0⟩
    rw [if_neg (version_in_range b0)] at h
    simp only [except_bind_eq_error, readInput_eq_error, beExtract_eq_error] at h
    rcases h with ⟨o, ho, h⟩ | ⟨_, -, ⟨h3, h⟩ | ⟨b3, -, h⟩⟩
    · cases h
      obtain ⟨h1, h2, h3, -⟩ := Memory.readBytes_eq_error.mp ho
      exact ⟨o, rfl, by omega, by omega, h3⟩
    · cases h; exact ⟨3, rfl, by omega, by omega, h3⟩
    have hE := (bfUnpack3_legal b3).1.2
    have hT := (bfUnpack3_legal b3).2.2
    simp only [Config.lenMax] at hE hT
    simp only [beExtractChecked_eq_error, Config.fixedPrefixSize] at h
    rcases h with (⟨-, h⟩ | ⟨hl, o, ho, h⟩) | ⟨⟨_, o1⟩, hs, h⟩
    · cases h
    · cases h
      obtain ⟨h1, h2, h3, -⟩ := Memory.readBytes_eq_error.mp ho
      exact ⟨o, rfl, by omega, by omega, h3⟩
    obtain ⟨-, rfl, -⟩ := beExtractChecked_eq_ok.mp hs
    rcases h with (⟨-, h⟩ | ⟨hl, o, ho, h⟩) | ⟨⟨_, o2⟩, ht, h⟩
    · cases h
    · cases h
      obtain ⟨h1, h2, h3, -⟩ := Memory.readBytes_eq_error.mp ho
      exact ⟨o, rfl, by omega, by omega, h3⟩
    obtain ⟨-, rfl, -⟩ := beExtractChecked_eq_ok.mp ht
    rcases h with (⟨-, h⟩ | ⟨hl, o, ho, h⟩) | ⟨⟨_, o3⟩, hd, h⟩
    · cases h
    · cases h
      obtain ⟨h1, h2, h3, -⟩ := Memory.readBytes_eq_error.mp ho
      exact ⟨o, rfl, by omega, by omega, h3⟩
    · cases h

theorem runUnlessFaulted_of_faulted {c : State → Host.Outcome State Fault Refusal} {s : State}
    (h : s.status.fault = 1) : runUnlessFaulted c s = .next s := by
  rw [runUnlessFaulted, if_pos (State.faulted_eq_true.mpr h)]

theorem runUnlessFaulted_of_running {c : State → Host.Outcome State Fault Refusal} {s : State}
    (h : s.status.fault = 0) : runUnlessFaulted c s = c s := by
  rw [runUnlessFaulted, if_neg (by simp [State.faulted_eq_false.mpr h])]

theorem status_fault_cases (st : Status) : st.fault = 0 ∨ st.fault = 1 := by
  generalize st.fault = b; revert b; decide

/-- Everything DECODE can do to reach a next state. -/
theorem execDecode_next {s t : State} (h : execDecode s = .next t) :
    (s.status.fault = 1 ∧ t = s) ∨
    (s.status.fault = 0 ∧ ∃ e, e ≠ .invalidVersion ∧ parseHeader s.inLen s.ibuf = .error (.raised e) ∧
      t = s.raiseDecodeError e) ∨
    (s.status.fault = 0 ∧ ∃ k, ParsesTo s.inLen s.ibuf k ∧ t = (s.commitHdr k).reportOk lastDecode) := by
  rcases status_fault_cases s.status with hf | hf
  · rw [execDecode, runUnlessFaulted_of_running hf, decodeCommandBody] at h
    cases hp : parseHeader s.inLen s.ibuf with
    | ok k =>
      simp only [hp, Host.Outcome.next.injEq] at h
      exact .inr (.inr ⟨hf, k, parseHeader_eq_ok.mp hp, h.symm⟩)
    | error r =>
      cases r with
      | raised e =>
        simp only [hp, Host.Outcome.next.injEq] at h
        refine .inr (.inl ⟨hf, e, ?_, rfl, h.symm⟩)
        rcases parseHeader_raises hp with ⟨rfl, -⟩ | ⟨rfl, -⟩ <;> simp
      | modelFault f => simp [hp] at h
  · rw [execDecode, runUnlessFaulted_of_faulted hf] at h
    exact .inl ⟨hf, (Host.Outcome.next.inj h).symm⟩

/-- Everything ENCODE can do to reach a next state. -/
theorem execEncode_next {s t : State} (h : execEncode s = .next t) :
    (s.status.fault = 1 ∧ t = s) ∨
    (s.status.fault = 0 ∧ (∀ f, s.marks.get f = true) ∧ ¬ s.hdr.Legal ∧ t = s.raiseFault .encPrecond) ∨
    (s.status.fault = 0 ∧ (∀ f, s.marks.get f = true) ∧ ∃ legal : s.hdr.Legal,
      t = ((s.setObuf (emitHeader s.hdr legal s.obuf)).setOutLen (BitVec.ofNat 5 s.hdr.rawSize)).reportOk
        lastEncode) := by
  rcases status_fault_cases s.status with hf | hf
  · rw [execEncode, runUnlessFaulted_of_running hf, encodeCommandBody] at h
    cases hr : readHeader s with
    | error f => simp [hr] at h
    | ok k =>
      obtain ⟨hm, rfl⟩ := readHeader_eq_ok.mp hr
      simp only [hr] at h
      split at h <;> cases h
      · rename_i legal; exact .inr (.inr ⟨hf, hm, legal, rfl⟩)
      · rename_i legal; exact .inr (.inl ⟨hf, hm, legal, rfl⟩)
  · rw [execEncode, runUnlessFaulted_of_faulted hf] at h
    exact .inl ⟨hf, (Host.Outcome.next.inj h).symm⟩

/-- A command that is not DECODE or ENCODE is ignored, does nothing, or raises ILLEGAL_CMD. -/
theorem exec_other_next {i : Instr} {s t : State} (hd : i ≠ .decode) (he : i ≠ .encode)
    (h : exec i s = .next t) : t = s ∨ (s.status.fault = 0 ∧ t = s.raiseFault .illegalCmd) := by
  rcases status_fault_cases s.status with hf | hf
  · cases i <;> simp_all [exec, execNop, execReserved03, execReserved04, execReserved08, execReserved10,
      execReserved20, execReserved40, execReserved80, runUnlessFaulted_of_running hf, illegalCommand]
  · cases i <;> simp_all [exec, execNop, execReserved03, execReserved04, execReserved08, execReserved10,
      execReserved20, execReserved40, execReserved80, runUnlessFaulted_of_faulted hf]

/-- The bytes of a legal header, in wire order (R84). -/
def headerBytes (h : Hdr) (legal : h.Legal) : List Byte :=
  bfPack0 h.byte0 :: (beBytes 2 (crcAdjustEncode h.dataLen h.crcFlag).toNat ++
    bfPack3 h.byte3 legal.1 legal.2.1 ::
      (beBytes h.entityLen.toNat h.srcEid.toNat ++ (beBytes h.tsnLen.toNat h.tsn.toNat ++
        beBytes h.entityLen.toNat h.dstEid.toNat)))

theorem headerBytes_length (h : Hdr) (legal : h.Legal) : (headerBytes h legal).length = h.rawSize := by
  simp [headerBytes, Hdr.rawSize, Config.fixedPrefixSize]; omega

theorem rawSize_bounds {h : Hdr} (legal : h.Legal) : 7 ≤ h.rawSize ∧ h.rawSize ≤ 28 := by
  obtain ⟨⟨h1, h2⟩, ⟨h3, h4⟩, -⟩ := legal
  simp only [Config.lenMin, Config.lenMax] at *
  simp only [Hdr.rawSize, Config.fixedPrefixSize]; omega

theorem Memory.writeBytes_append (m : Memory) (a : Nat) (xs ys : List Byte) :
    m.writeBytes a (xs ++ ys) = (m.writeBytes a xs).writeBytes (a + xs.length) ys := by
  induction xs generalizing m a with
  | nil => rfl
  | cons x xs ih =>
    simp only [List.cons_append, Memory.writeBytes, ih, List.length_cons]
    rw [show a + 1 + xs.length = a + (xs.length + 1) by omega]

/-- ENCODE writes the header's bytes from offset 0 up. -/
theorem emitHeader_eq (h : Hdr) (legal : h.Legal) (m : Memory) :
    emitHeader h legal m = m.writeBytes 0 (headerBytes h legal) := by
  simp only [headerBytes, Memory.writeBytes, Memory.writeBytes_append, beBytes_length]
  simp only [emitHeader, bePack]

theorem emitHeader_wf {h : Hdr} (legal : h.Legal) {m : Memory} (hm : m.wf = true) :
    (emitHeader h legal m).wf = true := by
  rw [emitHeader_eq]
  refine Memory.wf_writeBytes _ hm ?_
  have := rawSize_bounds legal
  simp only [headerBytes_length, Config.bufferSize]; omega

end Sys2Proof.Machine
end

