-- ==== Sys2Proof/Laws/HostInterface.lean ====
section
/-! SUPPORT. What one host access and one step can do, said once, and the induction every invariant of the machine needs. -/

namespace Sys2Proof.Machine

theorem answerRead_next {x : Except Fault Data} {s t : State} (h : answerRead x s = .next t) :
    ∃ v, x = .ok v ∧ t = s.pushRead v := by
  cases x with
  | error f => cases h
  | ok v => exact ⟨v, rfl, (Host.Outcome.next.inj h).symm⟩

/-- Everything a host access can do to reach a next state. -/
theorem performAccess_next {a : Access} {s t : State} (h : performAccess a s = .next t) :
    (∃ v, t = s.pushRead v) ∨
    (∃ c, a = .wr .cmd c ∧ exec (decodeCommand c) s = .next t) ∨
    t = s ∨
    (∃ n, a = .wr .inLen n ∧ t = s.setInLen n) ∨
    (∃ f v, a = .wr (.hdr f) v ∧ t = s.writeHdr f v) ∨
    (∃ (o : BitVec 5) (v : Byte), a = .wrb .ibuf o v ∧ o.toNat < Config.bufferSize ∧
      t = s.setIbuf (s.ibuf.write o.toNat v)) ∨
    (a = .reset ∧ t = s.resetBlock) := by
  cases a with
  | rd r => obtain ⟨v, -, rfl⟩ := answerRead_next h; exact .inl ⟨v, rfl⟩
  | rdb b o => obtain ⟨v, -, rfl⟩ := answerRead_next h; exact .inl ⟨v, rfl⟩
  | reset => exact .inr (.inr (.inr (.inr (.inr (.inr ⟨rfl, (Host.Outcome.next.inj h).symm⟩)))))
  | wrb b o v =>
    have h : writeByte b o v s = t := Host.Outcome.next.inj h
    cases b with
    | obuf => exact .inr (.inr (.inl h.symm))
    | ibuf =>
      simp only [writeByte] at h
      split at h
      · exact .inr (.inr (.inl h.symm))
      · exact .inr (.inr (.inr (.inr (.inr (.inl ⟨o, v, rfl, by omega, h.symm⟩)))))
  | wr r v =>
    cases r with
    | cmd => exact .inr (.inl ⟨v, rfl, h⟩)
    | inLen => exact .inr (.inr (.inr (.inl ⟨v, rfl, (Host.Outcome.next.inj h).symm⟩)))
    | hdr f => exact .inr (.inr (.inr (.inr (.inl ⟨f, v, rfl, (Host.Outcome.next.inj h).symm⟩))))
    | status => exact .inr (.inr (.inl (Host.Outcome.next.inj h).symm))
    | outLen => exact .inr (.inr (.inl (Host.Outcome.next.inj h).symm))
    | rawSize => exact .inr (.inr (.inl (Host.Outcome.next.inj h).symm))
    | unmapped n => exact .inr (.inr (.inl (Host.Outcome.next.inj h).symm))

theorem mapNext_next {f : State → State} {o : Host.Outcome State Fault Refusal} {t : State}
    (h : mapNext f o = .next t) : ∃ u, o = .next u ∧ t = f u := by
  cases o with
  | next u => exact ⟨u, rfl, (Host.Outcome.next.inj h).symm⟩
  | fault r => cases h
  | refused r => cases h

/-- Everything a step can do to reach a next state: idle, pass a line without an access, or make one access and
put what is left of its line before the lines still pending. -/
theorem step_next {s t : State} (h : step s = .next t) :
    (s.pending = [] ∧ t = s) ∨
    ∃ line rest, s.pending = line :: rest ∧ line.wellFormed = true ∧
      ((lineAccesses line = [] ∧ t = s.setPending rest) ∨
        ∃ a more u, lineAccesses line = a :: more ∧ performAccess a (s.setPending rest) = .next u ∧
          t = u.setPending (more.map .access ++ lineAfterRead u.lastRead line ++ u.pending)) := by
  unfold step hostStep at h
  cases hp : s.pending with
  | nil => simp only [hp, Host.Outcome.next.injEq] at h; exact .inl ⟨rfl, h.symm⟩
  | cons line rest =>
    simp only [hp] at h
    split at h
    · rename_i hw
      refine .inr ⟨line, rest, rfl, hw, ?_⟩
      unfold runLine at h
      cases hl : lineAccesses line with
      | nil => simp only [hl, Host.Outcome.next.injEq] at h; exact .inl ⟨rfl, h.symm⟩
      | cons a more =>
        simp only [hl] at h
        obtain ⟨u, hu, rfl⟩ := mapNext_next h
        exact .inr ⟨a, more, u, rfl, hu, rfl⟩
    · cases h

/-- A property of the block, not of the host's script, that every access keeps is kept by every step. -/
theorem step_keeps {P : State → Prop} (hpend : ∀ s p, P s → P (s.setPending p))
    (hacc : ∀ a s t, P s → performAccess a s = .next t → P t) {s t : State} (hs : P s) (h : step s = .next t) :
    P t := by
  rcases step_next h with ⟨-, rfl⟩ | ⟨line, rest, -, -, ⟨-, rfl⟩ | ⟨a, more, u, -, hu, rfl⟩⟩
  · exact hs
  · exact hpend _ _ hs
  · exact hpend _ _ (hacc _ _ _ (hpend _ _ hs) hu)

/-- Everything a command can do to reach a next state. -/
theorem exec_next {i : Instr} {s t : State} (h : exec i s = .next t) :
    t = s ∨
    (s.status.fault = 0 ∧ ∃ c, t = s.raiseFault c) ∨
    (∃ e, e ≠ .invalidVersion ∧ t = s.raiseDecodeError e) ∨
    (∃ k, ParsesTo s.inLen s.ibuf k ∧ t = (s.commitHdr k).reportOk lastDecode) ∨
    ((∀ f, s.marks.get f = true) ∧ ∃ legal : s.hdr.Legal,
      t = ((s.setObuf (emitHeader s.hdr legal s.obuf)).setOutLen (BitVec.ofNat 5 s.hdr.rawSize)).reportOk
        lastEncode) := by
  by_cases hd : i = .decode
  · subst hd
    rcases execDecode_next h with ⟨-, rfl⟩ | ⟨-, e, he, -, rfl⟩ | ⟨-, k, hk, rfl⟩
    · exact .inl rfl
    · exact .inr (.inr (.inl ⟨e, he, rfl⟩))
    · exact .inr (.inr (.inr (.inl ⟨k, hk, rfl⟩)))
  · by_cases he : i = .encode
    · subst he
      rcases execEncode_next h with ⟨-, rfl⟩ | ⟨hf, -, -, rfl⟩ | ⟨-, hm, legal, rfl⟩
      · exact .inl rfl
      · exact .inr (.inl ⟨hf, _, rfl⟩)
      · exact .inr (.inr (.inr (.inr ⟨hm, legal, rfl⟩)))
    · rcases exec_other_next hd he h with rfl | ⟨hf, rfl⟩
      · exact .inl rfl
      · exact .inr (.inl ⟨hf, _, rfl⟩)

/-- Reset memory is in canonical form. -/
theorem reset_buffers_wf : State.reset.ibuf.wf = true ∧ State.reset.obuf.wf = true := ⟨rfl, rfl⟩

/-- A command keeps the canonical form of both buffers. -/
theorem exec_buffers_wf {i : Instr} {s t : State} (h : exec i s = .next t) (hi : s.ibuf.wf = true)
    (ho : s.obuf.wf = true) : t.ibuf.wf = true ∧ t.obuf.wf = true := by
  rcases exec_next h with rfl | ⟨-, c, rfl⟩ | ⟨e, -, rfl⟩ | ⟨k, -, rfl⟩ | ⟨-, legal, rfl⟩
  case inr.inr.inr.inr => exact ⟨hi, emitHeader_wf legal ho⟩
  all_goals exact ⟨hi, ho⟩

/-- A host access keeps the canonical form of both buffers. -/
theorem performAccess_buffers_wf {a : Access} {s t : State} (h : performAccess a s = .next t)
    (hi : s.ibuf.wf = true) (ho : s.obuf.wf = true) : t.ibuf.wf = true ∧ t.obuf.wf = true := by
  rcases performAccess_next h with ⟨v, rfl⟩ | ⟨c, -, hc⟩ | rfl | ⟨n, -, rfl⟩ | ⟨f, v, -, rfl⟩ |
    ⟨o, v, -, hlt, rfl⟩ | ⟨-, rfl⟩
  case inr.inl => exact exec_buffers_wf hc hi ho
  case inr.inr.inr.inr.inr.inl => exact ⟨Memory.wf_write v hi hlt, ho⟩
  case inr.inr.inr.inr.inr.inr => exact reset_buffers_wf
  all_goals exact ⟨hi, ho⟩

/-- A step that answers `t` leaves the other `k` steps to `t`. -/
theorem stepTimes_of_next {s t : State} (h : step s = .next t) (k : Nat) :
    Safety.stepTimes (k + 1) s = Safety.stepTimes k t := by
  simp only [Safety.stepTimes, h]

end Sys2Proof.Machine
end

