-- ==== Sys2Proof/Laws/PerInstr.lean ====
section
/-! SUPPORT. Facts about each command as an encoding, one lemma per constructor of Instr. -/

namespace Sys2Proof.Laws.TableRow

/-- A command's code falls under its own row of the opcode table, and under no other. -/
def Statement (i : Instr) : Prop :=
  opcodeTable.filter (fun r => r.covers (encodeCommand i)) = [i.row]

theorem nop : Statement .nop := by unfold Statement; decide
theorem decode : Statement .decode := by unfold Statement; decide
theorem encode : Statement .encode := by unfold Statement; decide
theorem reserved03 : Statement .reserved03 := by unfold Statement; decide
theorem reserved04 (low : BitVec 2) : Statement (.reserved04 low) := by revert low; unfold Statement; decide
theorem reserved08 (low : BitVec 3) : Statement (.reserved08 low) := by revert low; unfold Statement; decide
theorem reserved10 (low : BitVec 4) : Statement (.reserved10 low) := by revert low; unfold Statement; decide
theorem reserved20 (low : BitVec 5) : Statement (.reserved20 low) := by revert low; unfold Statement; decide
theorem reserved40 (low : BitVec 6) : Statement (.reserved40 low) := by revert low; unfold Statement; decide
theorem reserved80 (low : BitVec 7) : Statement (.reserved80 low) := by revert low; unfold Statement; decide

end Sys2Proof.Laws.TableRow
end

