-- ==== Sys2Proof/Tests/Slice0.lean ====
section
/-! SUPPORT. Tests of the model: command words and wire values from the spec's tables and vectors (95_test_vectors.md), the
well-formedness checks, and for each statement with hypotheses a state and operands that meet all of them. -/

namespace Sys2Proof.Tests

open Sys2Proof.Machine Sys2Proof.Safety Sys2Proof.Claims

/-- The next state, if there is one. -/
def nextOf : Host.Outcome State Fault Refusal → Option State
  | .next s => some s
  | .fault _ => none
  | .refused _ => none

/-- The model fault, if there is one. -/
def faultOf : Host.Outcome State Fault Refusal → Option Fault
  | .next _ => none
  | .fault r => some r
  | .refused _ => none

/-- The STATUS of the next state. -/
def statusOf (o : Host.Outcome State Fault Refusal) : Option Status := (nextOf o).map State.status

/-- The header of the next state. -/
def hdrOf (o : Host.Outcome State Fault Refusal) : Option Hdr := (nextOf o).map State.hdr

/-- OBUF of the next state. -/
def obufOf (o : Host.Outcome State Fault Refusal) : Option Memory := (nextOf o).map State.obuf

/-- The reset state with bytes in IBUF and a length in IN_LEN. -/
def offered (n : BitVec 32) (bytes : List Byte) : State :=
  { State.reset with inLen := n, ibuf := Memory.writeBytes [] 0 bytes }

/-- The reset state with every header field written. -/
def filled (h : Hdr) : State :=
  { State.reset with hdr := h, marks := HdrMarks.fill true }

/-- A header of widths 1 and 1, every other field 0. -/
def least : Hdr := { Hdr.blank with entityLen := 1, tsnLen := 1 }

/-- The offsets of a byte list, 0 past its end. -/
def bytesOf (bytes : List Byte) (a : Nat) : Byte := bytes.getD a 0

/-- The bytes of vector D4. -/
def bytesD4 : List Byte := [0x20, 0x00, 0x05, 0x00, 0x01, 0x02, 0x03]

/-- The bytes of vector D12. -/
def bytesD12 : List Byte := [0x22, 0x00, 0x06, 0x11, 0xAA, 0xBB, 0xCC, 0xDD, 0xEE, 0xFF]

/-- The bytes of vector D15. -/
def bytesD15 : List Byte :=
  [0xE3, 0x00, 0x03, 0xFF, 0x01, 0x02, 0x03, 0x04, 0x05, 0x06, 0x07, 0x08, 0x11, 0x12] ++
  [0x13, 0x14, 0x15, 0x16, 0x17, 0x18, 0xFF, 0xFF, 0xFF, 0xFF, 0xFF, 0xFF, 0xFF, 0xFF]

/-- The header of vector D12. -/
def hdrD12 : Hdr :=
  { Hdr.blank with version := 1, crcFlag := 1, dataLen := 2, entityLen := 2, tsnLen := 2, srcEid := 0xAABB,
                   tsn := 0xCCDD, dstEid := 0xEEFF }

/-- The header of vector E1. -/
def hdrE1 : Hdr := { least with version := 1, crcFlag := 1, dataLen := 6, srcEid := 1, tsn := 2, dstEid := 3 }

/-- The header of vector E5, with the greatest widths and values. -/
def hdrE5 : Hdr :=
  { Hdr.blank with entityLen := 8, tsnLen := 8, srcEid := 0xFFFFFFFFFFFFFFFF, tsn := 0xFFFFFFFFFFFFFFFF,
                   dstEid := 0xFFFFFFFFFFFFFFFF }

/-- The reset state faulted with ENC_PRECOND after a successful DECODE. -/
def faultedState : State := State.reset.setStatus 0x0291

/-- The reset state with one line pending, and a comment after it. -/
def about (line : Line) : State := State.reset.setPending [line, .comment ""]

/-! Command words (R80, opcode_table.json): the first and last code of each row. -/

theorem test_decode_nop : decodeTableWord 8 0b00000000 = some .nop := by decide
theorem test_decode_decode : decodeTableWord 8 0b00000001 = some .decode := by decide
theorem test_decode_encode : decodeTableWord 8 0b00000010 = some .encode := by decide
theorem test_decode_reserved03 : decodeTableWord 8 0b00000011 = some .reserved03 := by decide
theorem test_decode_reserved04 :
    decodeTableWord 8 0b00000100 = some (.reserved04 0b00) ∧ decodeTableWord 8 0b00000111 = some (.reserved04 0b11) := by
  decide
theorem test_decode_reserved08 :
    decodeTableWord 8 0b00001000 = some (.reserved08 0b000) ∧
    decodeTableWord 8 0b00001111 = some (.reserved08 0b111) := by
  decide
theorem test_decode_reserved10 :
    decodeTableWord 8 0b00010000 = some (.reserved10 0b0000) ∧
    decodeTableWord 8 0b00011111 = some (.reserved10 0b1111) := by
  decide
theorem test_decode_reserved20 :
    decodeTableWord 8 0b00100000 = some (.reserved20 0b00000) ∧
    decodeTableWord 8 0b00111111 = some (.reserved20 0b11111) := by
  decide
theorem test_decode_reserved40 :
    decodeTableWord 8 0b01000000 = some (.reserved40 0b000000) ∧
    decodeTableWord 8 0b01111111 = some (.reserved40 0b111111) := by
  decide
theorem test_decode_reserved80 :
    decodeTableWord 8 0b10000000 = some (.reserved80 0b0000000) ∧
    decodeTableWord 8 0b11111111 = some (.reserved80 0b1111111) := by
  decide
theorem test_decode_no_byte : decodeBytes [] = .error .noCommandByte := rfl

/-! Well-formed script lines: each check refuses a term (R22, R93). -/

theorem test_wf_unmapped_mapped_number :
    (Access.rd (.unmapped 0x04)).wellFormed = false ∧ (Access.rd (.unmapped 0x1D)).wellFormed = false ∧
    (Access.wr (.unmapped 0x10) 0).wellFormed = false := by decide
theorem test_wf_unmapped :
    (Access.rd (.unmapped 0x05)).wellFormed = true ∧ (Access.rd (.unmapped 0x1E)).wellFormed = true := by decide
theorem test_wf_loadbuf :
    (Line.loadBuf (List.replicate 28 0)).wellFormed = true ∧
    (Line.loadBuf (List.replicate 29 0)).wellFormed = false := by decide
theorem test_wf_if_bits :
    (Line.ifBits .status 15 0 0 .nop).wellFormed = true ∧ (Line.ifBits .status 16 0 0 .nop).wellFormed = false ∧
    (Line.ifBits .status 0 1 0 .nop).wellFormed = false := by decide
theorem test_wf_if_register : (Line.ifBits (.unmapped 0x00) 0 0 0 .nop).wellFormed = false := by decide
theorem test_wf_if_line :
    (Line.ifBits .status 1 0 1 (.loadBuf (List.replicate 29 0))).wellFormed = false := by decide

/-! The big-endian unit and the field codec (vectors L2-1, L2-2). -/

theorem test_be_value : beValue [0x00, 0x0A] = 10 ∧ beValue (List.replicate 8 0xFF) = 2 ^ 64 - 1 := by decide
theorem test_be_bytes : beBytes 3 0x0A0B0C = [0x0A, 0x0B, 0x0C] ∧ beBytes 2 3 = [0x00, 0x03] := by decide
theorem test_byte0 :
    bfUnpack0 0x3D = ⟨1, 1, 1, 1, 0, 1⟩ ∧ bfPack0 ⟨1, 0, 0, 0, 1, 0⟩ = 0x22 ∧ bfPack0 ⟨7, 0, 0, 0, 1, 1⟩ = 0xE3 := by
  decide
theorem test_byte3 :
    bfUnpack3 0xA0 = ⟨1, 3, 0, 1⟩ ∧ bfUnpack3 0x08 = ⟨0, 1, 1, 1⟩ ∧
    bfPack3 ⟨0, 3, 0, 5⟩ (by decide) (by decide) = 0x24 := by decide
theorem test_crc_adjust :
    crcAdjustDecode 2 1 = 0xFFFE ∧ crcAdjustDecode 10 0 = 10 ∧ crcAdjustEncode 0xFFFC 1 = 0 ∧
    crcAdjustEncode 0xFFFF 1 = 3 := by decide
/-- Both bit values of every flag (R36 to R40, R42, R43). -/
theorem test_labels :
    (PduType.ofBit 0 = .fileDirective ∧ PduType.ofBit 1 = .fileData) ∧
    (Direction.ofBit 0 = .toReceiver ∧ Direction.ofBit 1 = .toSender) ∧
    (TransmissionMode.ofBit 0 = .acknowledged ∧ TransmissionMode.ofBit 1 = .unacknowledged) ∧
    (CrcFlag.ofBit 0 = .crcNotPresent ∧ CrcFlag.ofBit 1 = .crcPresent) ∧
    (LargeFileFlag.ofBit 0 = .smallFile ∧ LargeFileFlag.ofBit 1 = .largeFile) ∧
    (SegmentationControl.ofBit 0 = .notPreserved ∧ SegmentationControl.ofBit 1 = .preserved) ∧
    (SegmentMetadataFlag.ofBit 0 = .notPresent ∧ SegmentMetadataFlag.ofBit 1 = .present) := by decide

/-! One step of each command (vectors L2-3 to L2-5, L2-7). -/

/-- D12. -/
theorem test_decode_d12 :
    hdrOf (step ((offered 10 bytesD12).withFetchWord 8 0x01)) = some hdrD12 ∧
    statusOf (step ((offered 10 bytesD12).withFetchWord 8 0x01)) = some 0x0011 := by decide
/-- D9: the check 6 ≤ 8 passes and IBUF[4] is unwritten. -/
theorem test_decode_d9 :
    faultOf (exec .decode (offered 8 [0x20, 0x00, 0x00, 0x11])) = some (.unwrittenRead (.ibuf 4)) := by decide
/-- E1. -/
theorem test_encode_e1 :
    obufOf (exec .encode (filled hdrE1)) =
      some [(0, 0x22), (1, 0x00), (2, 0x0A), (3, 0x00), (4, 0x01), (5, 0x02), (6, 0x03)] ∧
    statusOf (exec .encode (filled hdrE1)) = some 0x0021 := by decide
/-- E10, and E7's width rule: SRC_EID 0x100 does not fit one byte. -/
theorem test_encode_precondition :
    statusOf (exec .encode ((filled { least with entityLen := 9 }).setStatus 0x0011)) = some 0x0291 ∧
    statusOf (exec .encode (filled { least with srcEid := 0x100 })) = some 0x0280 := by decide
/-- N1. -/
theorem test_nop_n1 : statusOf (exec .nop (State.reset.setStatus 0x0011)) = some 0x0011 := by decide
/-- N3. -/
theorem test_reserved_n3 : statusOf (exec .reserved03 State.reset) = some 0x0180 := by decide
/-- N4. -/
theorem test_reserved_n4 : statusOf (exec (.reserved80 0x7F) (State.reset.setStatus 0x0016)) = some 0x0196 := by decide
/-- N5, N6. -/
theorem test_faulted_n5_n6 :
    nextOf (exec .decode (State.reset.setStatus 0x0180)) = some (State.reset.setStatus 0x0180) ∧
    nextOf (exec .reserved03 faultedState) = some faultedState := by decide
/-- N12, and the last mapped offset right after reset (L2-7). -/
theorem test_read_byte_edges :
    nextOf (performAccess (.rdb .ibuf 28) State.reset) = some (State.reset.pushRead 0) ∧
    faultOf (performAccess (.rdb .ibuf 27) State.reset) = some (.unwrittenRead (.ibuf 27)) := by decide
/-- The largest RAW_SIZE (L2-6). -/
theorem test_raw_size_49 :
    nextOf (performAccess (.rd .rawSize) (filled { least with entityLen := 15, tsnLen := 15 })) =
      some ((filled { least with entityLen := 15, tsnLen := 15 }).pushRead 49) := by decide

/-! Facts about the states above that several witnesses use. -/

theorem filled_marks (h : Hdr) (f : HdrField) : (filled h).marks.get f = true := HdrMarks.get_fill true f

theorem legal_reset : StatusLegal 0x0000 := by constructor <;> decide
theorem legal_decoded : StatusLegal 0x0011 := by constructor <;> decide
theorem legal_faulted : StatusLegal 0x0291 := by constructor <;> decide

theorem holds_d4 : Holds (offered 7 bytesD4).ibuf 0 7 (bytesOf bytesD4) := by unfold Holds; decide
theorem holds_d15 : Holds (offered 28 bytesD15).ibuf 0 28 (bytesOf bytesD15) := by unfold Holds; decide

/-- DECODE of D4 and of D15 succeeds. -/
theorem decode_succeeds :
    statusOf (exec .decode (offered 7 bytesD4)) = some 0x0011 ∧
    statusOf (exec .decode (offered 28 bytesD15)) = some 0x0011 := by decide

/-! Witnesses: for each statement with hypotheses, concrete terms that meet all of them. -/

theorem witness_StepRunsIssuedCommand :
    (about (.access (.wr .cmd 0xFF))).pending = .access (.wr .cmd 0xFF) :: [.comment ""] ∧
    (about .nop).pending = .nop :: [.comment ""] ∧ (about .decode).pending = .decode :: [.comment ""] ∧
    (about .encode).pending = .encode :: [.comment ""] := by decide

theorem witness_StepMakesOneAccess :
    ((about (.access (.rd (.unmapped 0xFF)))).pending = .access (.rd (.unmapped 0xFF)) :: [.comment ""] ∧
      (Access.rd (.unmapped 0xFF)).wellFormed = true) ∧
    State.reset.pending = [] ∧
    ((about (.loadBuf (List.replicate 29 0))).pending = .loadBuf (List.replicate 29 0) :: [.comment ""] ∧
      (Line.loadBuf (List.replicate 29 0)).wellFormed = false) := by decide

theorem witness_LoadBufLoads :
    ((about (.loadBuf [])).pending = .loadBuf [] :: [.comment ""] ∧ ([] : List Byte).length ≤ 28) ∧
    ((about (.loadBuf bytesD15)).pending = .loadBuf bytesD15 :: [.comment ""] ∧ bytesD15.length ≤ 28) := by decide

theorem witness_SetHdrWritesInOrder :
    (about (.setHdr [⟨.version, 1⟩, ⟨.version, 2⟩])).pending =
      .setHdr [⟨.version, 1⟩, ⟨.version, 2⟩] :: [.comment ""] ∧
    ([⟨.version, 1⟩, ⟨.version, 2⟩] : List FieldValue) ≠ [] := by decide

theorem witness_CopyOutCopies :
    ((about .copyOut).pending = .copyOut :: [.comment ""] ∧ (about .copyOut).outLen.toNat ≤ 28 ∧
      ∀ a < (about .copyOut).outLen.toNat, (about .copyOut).obuf.read a ≠ none) ∧
    (({ about .copyOut with outLen := 28, obuf := Memory.writeBytes [] 0 bytesD15 } : State).outLen.toNat ≤ 28 ∧
      ∀ a < 28, (Memory.writeBytes [] 0 bytesD15).read a ≠ none) := by decide

theorem witness_IfBranchesOnBits :
    (about (.ifBits .status 1 0 0 .encode)).pending = .ifBits .status 1 0 0 .encode :: [.comment ""] ∧
    (Line.ifBits .status 1 0 0 .encode).wellFormed = true ∧
    (Line.ifBits (.hdr .srcEid) 63 0 7 .encode).wellFormed = true ∧
    readReg .status (about (.ifBits .status 1 0 0 .encode)) = .ok 0 :=
  ⟨by decide, by decide, by decide, rfl⟩

theorem witness_RegisterMap : Reg.cmd ∈ Reg.mapped ∧ Reg.hdr .dstEid ∈ Reg.mapped := by decide

theorem witness_HostReadsRegisters :
    (filled least).marks.get .dstEid = true ∧ State.reset.marks.get .version = false := by decide

theorem witness_HostWritesRegisters : HdrField.tsn ≠ HdrField.version := by decide

theorem witness_RawSizeView :
    ((filled hdrE5).marks.get .entityLen = true ∧ (filled hdrE5).marks.get .tsnLen = true ∧
      1 ≤ (filled hdrE5).hdr.entityLen.toNat ∧ (filled hdrE5).hdr.entityLen.toNat ≤ 8 ∧
      1 ≤ (filled hdrE5).hdr.tsnLen.toNat ∧ (filled hdrE5).hdr.tsnLen.toNat ≤ 8) ∧
    (1 ≤ (filled least).hdr.entityLen.toNat ∧ 1 ≤ (filled least).hdr.tsnLen.toNat) ∧
    State.reset.marks.get .entityLen = false ∧
    ((State.reset.writeHdr .entityLen 1).marks.get .entityLen = true ∧
      (State.reset.writeHdr .entityLen 1).marks.get .tsnLen = false) := by decide

theorem witness_HostByteAccesses :
    28 ≤ (28 : BitVec 5).toNat ∧ 28 ≤ (31 : BitVec 5).toNat ∧
    ((27 : BitVec 5).toNat < 28 ∧ ((offered 28 bytesD15).buffer .ibuf).read (27 : BitVec 5).toNat = some 0xFF) ∧
    ((0 : BitVec 5).toNat < 28 ∧ ((offered 28 bytesD15).buffer .ibuf).read (0 : BitVec 5).toNat = some 0xE3) ∧
    (State.reset.buffer .obuf).read (27 : BitVec 5).toNat = none := by decide

theorem witness_ReadsHaveNoSideEffect :
    performAccess (.rd .status) State.reset = .next (State.reset.pushRead 0) ∧
    performAccess (.rdb .obuf 31) State.reset = .next (State.reset.pushRead 0) := ⟨rfl, rfl⟩

theorem witness_LengthCodeEncodes :
    widthLegal 1 ∧ widthLegal 8 ∧
    (∀ f, (filled { least with entityLen := 9 }).marks.get f = true) ∧
    ((filled { least with entityLen := 0 }).status.fault = 0 ∧ (0 : BitVec 4).toNat = 0) ∧
    8 < (filled { least with entityLen := 9 }).hdr.entityLen.toNat ∧
    (filled { least with tsnLen := 0 }).hdr.tsnLen.toNat = 0 ∧
    8 < (filled { least with tsnLen := 15 }).hdr.tsnLen.toNat :=
  ⟨by decide, by decide, filled_marks _, by decide, by decide, by decide, by decide⟩

theorem witness_ByteThreeLayout :
    widthLegal (Byte3.mk 1 8 0 1).entityLen ∧ widthLegal (Byte3.mk 1 8 0 1).tsnLen := by decide

theorem witness_ByteMapsBijective :
    widthLegal (Byte3.mk 0 1 1 8).entityLen ∧ widthLegal (Byte3.mk 0 1 1 8).tsnLen := by decide

theorem witness_BeExtractIsSum :
    Holds (offered 28 bytesD15).ibuf 20 8 (bytesOf bytesD15) ∧
    ((1 : Nat) < 8 ∧ (offered 7 bytesD4).ibuf.read (6 + 1) = none ∧
      ∀ j < 1, (offered 7 bytesD4).ibuf.read (6 + j) ≠ none) :=
  ⟨by unfold Holds; decide, by decide⟩

theorem witness_BeExtractChecksBounds :
    (27 : BitVec 32).toNat < 20 + 8 ∧ 20 + 8 ≤ (28 : BitVec 32).toNat ∧
    Holds (offered 28 bytesD15).ibuf 20 8 (bytesOf bytesD15) ∧
    (6 + 2 ≤ (8 : BitVec 32).toNat ∧ (1 : Nat) < 2 ∧ (offered 8 bytesD4).ibuf.read (6 + 1) = none ∧
      ∀ j < 1, (offered 8 bytesD4).ibuf.read (6 + j) ≠ none) :=
  ⟨by decide, by decide, witness_BeExtractIsSum.1, by decide⟩

theorem witness_BePackWritesBytes :
    packFits 8 (2 ^ 64 - 1) ∧ packFits 1 0 ∧ (3 < 4 ∨ 4 + 8 ≤ 3) ∧ (12 < 4 ∨ 4 + 8 ≤ 12) := by decide

theorem witness_BigEndianInverse :
    packFits 2 0xFFFF ∧ (1 ≤ 8 ∧ 8 ≤ 8) ∧ Holds (offered 28 bytesD15).ibuf 20 8 (bytesOf bytesD15) :=
  ⟨by decide, by decide, witness_BeExtractIsSum.1⟩

theorem witness_ReservedCodeRaisesIllegalCmd :
    3 ≤ (0x03 : Byte).toNat ∧ 3 ≤ (0xFF : Byte).toNat ∧ State.reset.status.fault = 0 := by decide

theorem witness_ReservedRowsComplete : (State.reset.setStatus 0x0011).status.fault = 0 := by decide

theorem witness_DecodeReportsTooSmall :
    State.reset.status.fault = 0 ∧ State.reset.inLen.toNat < 7 ∧ (offered 6 bytesD4).inLen.toNat < 7 ∧
    StatusLegal State.reset.status :=
  ⟨by decide, by decide, by decide, legal_reset⟩

theorem witness_DecodeReportsTruncation :
    (offered 7 [0x20, 0x00, 0x00, 0x70]).status.fault = 0 ∧
    (7 ≤ (offered 7 [0x20, 0x00, 0x00, 0x70]).inLen.toNat ∧
      (offered 7 [0x20, 0x00, 0x00, 0x70]).inLen.toNat < 4 + entityWidth (bytesOf [0x20, 0x00, 0x00, 0x70]) ∧
      Holds (offered 7 [0x20, 0x00, 0x00, 0x70]).ibuf 0 4 (bytesOf [0x20, 0x00, 0x00, 0x70])) ∧
    ((offered 11 (bytesD15.take 12)).inLen.toNat < 4 + entityWidth (bytesOf bytesD15) + tsnWidth (bytesOf bytesD15) ∧
      Holds (offered 12 (bytesD15.take 12)).ibuf 0 (4 + entityWidth (bytesOf bytesD15)) (bytesOf bytesD15)) ∧
    ((offered 27 bytesD15).inLen.toNat < headerSize (bytesOf bytesD15) ∧
      Holds (offered 27 bytesD15).ibuf 0 (4 + entityWidth (bytesOf bytesD15) + tsnWidth (bytesOf bytesD15))
        (bytesOf bytesD15)) ∧
    StatusLegal (offered 27 bytesD15).status := by
  refine ⟨by decide, ⟨by decide, by decide, ?_⟩, ⟨by decide, ?_⟩, ⟨by decide, ?_⟩, legal_reset⟩ <;>
    (unfold Holds; decide)

theorem witness_DecodeReadsHeader :
    (offered 7 bytesD4).status.fault = 0 ∧
    (headerSize (bytesOf bytesD4) ≤ (offered 7 bytesD4).inLen.toNat ∧
      Holds (offered 7 bytesD4).ibuf 0 (headerSize (bytesOf bytesD4)) (bytesOf bytesD4)) ∧
    (headerSize (bytesOf bytesD15) ≤ (offered 28 bytesD15).inLen.toNat ∧
      Holds (offered 28 bytesD15).ibuf 0 (headerSize (bytesOf bytesD15)) (bytesOf bytesD15)) ∧
    StatusLegal (offered 7 bytesD4).status :=
  ⟨by decide, ⟨by decide, holds_d4⟩, ⟨by decide, holds_d15⟩, legal_reset⟩

theorem witness_DecodeAllOrNothing :
    (∃ t, exec .decode State.reset = .next t ∧ t.status.result = 0b10) ∧
    (∃ t, exec .decode (offered 7 [0x20, 0x00, 0x00, 0x70]) = .next t ∧ t.status.result = 0b10) :=
  ⟨⟨_, rfl, by decide⟩, ⟨_, rfl, by decide⟩⟩

theorem witness_DecodedHeaderIsLegal :
    (offered 28 bytesD15).status.fault = 0 ∧
    ∃ t, exec .decode (offered 28 bytesD15) = .next t ∧ t.status.result = 0b01 :=
  ⟨by decide, _, rfl, by decide⟩

theorem witness_InvalidVersionNeverReported :
    ∃ t, exec .nop (State.reset.setStatus 0x001A) = .next t ∧ t.status.errCode = 0b10 :=
  ⟨_, rfl, by decide⟩

/-- D15's first `n` bytes, with IN_LEN `len`. -/
def partly (len : BitVec 32) (n : Nat) : State := offered len (bytesD15.take n)

/-- Each clause of R211 at the edges of its ranges, on D15's widths 8 and 8. -/
theorem witness_FirstEventIsTaken :
    (faultedState.status.fault = 1 ∧ State.reset.status.fault = 0 ∧ 3 ≤ (0x03 : Byte).toNat) ∧
    ((offered 6 bytesD4).status.fault = 0 ∧ (offered 6 bytesD4).inLen.toNat < 7) ∧
    (∀ k ∈ [0, 3, 4, 11, 12, 19, 20, 27], (partly 28 k).status.fault = 0 ∧ Holds (partly 28 k).ibuf 0 k (bytesOf bytesD15) ∧
      (partly 28 k).ibuf.read k = none ∧ 7 ≤ (partly 28 k).inLen.toNat) ∧
    entityWidth (bytesOf bytesD15) = 8 ∧ tsnWidth (bytesOf bytesD15) = 8 ∧ headerSize (bytesOf bytesD15) = 28 ∧
    (partly 11 4).inLen.toNat < 4 + 8 ∧ (partly 19 12).inLen.toNat < 4 + 8 + 8 ∧ (partly 27 20).inLen.toNat < 28 ∧
    State.reset.marks.get .version = false ∧
    ((filled { least with entityLen := 9 }).status.fault = 0 ∧
      (∀ f, (filled { least with entityLen := 9 }).marks.get f = true) ∧
      ¬ (filled { least with entityLen := 9 }).hdr.Legal) := by
  refine ⟨by decide, by decide, ?_, by decide, by decide, by decide, by decide, by decide, by decide, by decide,
    by decide, filled_marks _, by decide⟩
  unfold Holds
  decide

theorem witness_DecodeReadsOnlyOfferedBytes :
    ∀ a, a < (offered 7 bytesD4).inLen.toNat → a < 28 →
      (offered 7 (bytesD4 ++ [0x99])).ibuf.read a = (offered 7 bytesD4).ibuf.read a := by decide

theorem witness_SurplusBytesIgnored :
    (offered 100 bytesD12).status.fault = 0 ∧
    (∃ t, exec .decode (offered 100 bytesD12) = .next t ∧ t.status.result = 0b01 ∧
      4 + 2 * t.hdr.entityLen.toNat + t.hdr.tsnLen.toNat ≤ (10 : BitVec 32).toNat ∧
      ∀ a < 4 + 2 * t.hdr.entityLen.toNat + t.hdr.tsnLen.toNat,
        (offered 10 (bytesD12 ++ [0x99])).ibuf.read a = (offered 100 bytesD12).ibuf.read a) :=
  ⟨by decide, _, rfl, by decide, by decide, by decide⟩

theorem witness_RawSizeIsBytesConsumed :
    (∃ t, exec .decode (offered 7 bytesD4) = .next t ∧ t.status.result = 0b01) ∧ (6 : BitVec 32).toNat < 7 :=
  ⟨⟨_, rfl, by decide⟩, by decide⟩

theorem witness_EncodeWritesHeader :
    (filled hdrE1).status.fault = 0 ∧ (∀ f, (filled hdrE1).marks.get f = true) ∧ (filled hdrE1).hdr.Legal ∧
    (∀ f, (filled hdrE5).marks.get f = true) ∧ (filled hdrE5).hdr.Legal ∧ StatusLegal (filled hdrE1).status :=
  ⟨by decide, filled_marks _, by decide, filled_marks _, by decide, legal_reset⟩

theorem witness_EncodeFrame :
    (∃ t, exec .encode (filled hdrE1) = .next t ∧ t.status.fault = 0) ∧
    (∃ t, exec .encode (filled { least with entityLen := 9 }) = .next t ∧ t.status.fault = 1) :=
  ⟨⟨_, rfl, by decide⟩, ⟨_, rfl, by decide⟩⟩

theorem witness_EncodeChecksPrecondition :
    (∀ f, (filled { least with entityLen := 9 }).marks.get f = true) ∧
    ((filled { least with entityLen := 9 }).setStatus 0x0011).status.fault = 0 ∧
    ((filled { least with entityLen := 9 }).setStatus 0x0011).status = 0x0011 ∧
    ¬ (1 ≤ ({ least with entityLen := 9 } : Hdr).entityLen.toNat ∧
      ({ least with entityLen := 9 } : Hdr).entityLen.toNat ≤ 8) ∧
    ¬ (1 ≤ ({ least with tsnLen := 0 } : Hdr).tsnLen.toNat ∧ ({ least with tsnLen := 0 } : Hdr).tsnLen.toNat ≤ 8) ∧
    2 ^ (8 * least.entityLen.toNat) ≤ ({ least with srcEid := 0x100 } : Hdr).srcEid.toNat ∧
    2 ^ (8 * least.tsnLen.toNat) ≤ ({ least with tsn := 0x100 } : Hdr).tsn.toNat ∧
    2 ^ (8 * least.entityLen.toNat) ≤ ({ least with dstEid := 0x100 } : Hdr).dstEid.toNat :=
  ⟨filled_marks _, by decide, by decide, by decide, by decide, by decide, by decide, by decide⟩

theorem witness_HeaderRoundTrip :
    (filled hdrE5).status.fault = 0 ∧ (∀ f, (filled hdrE5).marks.get f = true) ∧ (filled hdrE5).hdr.Legal ∧
    ∃ t, exec .encode (filled hdrE5) = .next t ∧ ∀ a < t.outLen.toNat, t.obuf.read a = t.obuf.read a :=
  ⟨by decide, filled_marks _, by decide, _, rfl, fun _ _ => rfl⟩

theorem witness_ByteRoundTrip :
    (offered 100 bytesD12).status.fault = 0 ∧
    ∃ t, exec .decode (offered 100 bytesD12) = .next t ∧ t.status.result = 0b01 :=
  ⟨by decide, _, rfl, by decide⟩

theorem witness_CommandsArePure :
    ((offered 8 [0x20, 0x00, 0x00, 0x11]).status.fault = 0 ∧
      exec .decode (offered 8 [0x20, 0x00, 0x00, 0x11]) = .fault (.unwrittenRead (.ibuf 4))) ∧
    (∃ t, exec .decode (offered 7 bytesD4) = .next t ∧ t.status.result = 0b01) ∧
    (offered 7 bytesD4).inLen = ((offered 7 bytesD4).setObuf [(0, 1)]).inLen ∧
    exec .encode State.reset = .fault (.unwrittenRead (.hdr .version)) ∧
    (∃ t, exec .encode (filled hdrE1) = .next t ∧ t.status.fault = 0) ∧
    (∃ t, exec .encode (filled Hdr.blank) = .next t ∧ t.status.fault = 1) :=
  ⟨⟨by decide, rfl⟩, ⟨_, rfl, by decide⟩, rfl, rfl, ⟨_, rfl, by decide⟩, ⟨_, rfl, by decide⟩⟩

theorem witness_FaultedBlockIgnoresCommands :
    faultedState.status.fault = 1 ∧ Access.wrb .ibuf 0 0x20 ≠ .rd .status ∧ Access.wrb .ibuf 0 0x20 ≠ .reset ∧
    (∀ c, Access.wrb .ibuf 0 0x20 ≠ .wr .cmd c) ∧
    (∃ t, performAccess (.wrb .ibuf 0 0x20) faultedState = .next t) ∧
    (∃ t, performAccess .reset faultedState = .next t) :=
  ⟨by decide, by decide, by decide, fun _ h => (nomatch h), ⟨_, rfl⟩, ⟨_, rfl⟩⟩

theorem witness_FaultStaysUntilReset :
    (faultedState.setPending [.decode]).status.fault = 1 ∧
    (∃ t, step (faultedState.setPending [.decode]) = .next t) ∧
    (∃ t, step (faultedState.setPending [.access .reset]) = .next t) :=
  ⟨by decide, ⟨_, rfl⟩, ⟨_, rfl⟩⟩

theorem witness_CommandFrames :
    (∃ t, exec .nop State.reset = .next t) ∧ (∃ t, exec .decode (offered 7 bytesD4) = .next t) ∧
    (∃ t, exec .encode (filled hdrE1) = .next t) ∧ (∃ t, exec (.reserved80 0) State.reset = .next t) :=
  ⟨⟨_, rfl⟩, ⟨_, rfl⟩, ⟨_, rfl⟩, ⟨_, rfl⟩⟩

theorem witness_HostCannotWriteResults :
    (∃ t, performAccess (.wr .status 0xFFFF) State.reset = .next t) ∧
    (∀ c, Access.wr .status 0xFFFF ≠ .wr .cmd c) ∧ Access.wr .status 0xFFFF ≠ .reset :=
  ⟨⟨_, rfl⟩, fun _ h => (nomatch h), by decide⟩

theorem witness_MarksOnlyGrow :
    (∃ t, performAccess (.wr .cmd 0x02) (filled hdrE1) = .next t) ∧ Access.wr .cmd 0x02 ≠ .reset ∧
    (filled hdrE1).marks.get .tsn = true ∧ (offered 7 bytesD4).ibuf.read 6 ≠ none ∧
    ((filled hdrE1).setObuf [(27, 0)]).obuf.read 27 ≠ none :=
  ⟨⟨_, rfl⟩, by decide, by decide, by decide, by decide⟩

theorem witness_OnlyUnwrittenReadsFault :
    performAccess (.rd .rawSize) State.reset = .fault (.unwrittenRead (.hdr .entityLen)) := rfl

theorem witness_NothingIsRefused :
    step (about (.loadBuf (List.replicate 29 0))) = .refused .illFormedLine := rfl

theorem witness_AfterReset : (27 : BitVec 5).toNat < 28 ∧ (0 : BitVec 5).toNat < 28 := by decide

/-- A state in which every invariant holds and ENCODE is the next line: E1's header, and D15's bytes left in OBUF by an
ENCODE before it. -/
def encodeNext : State :=
  { filled hdrE1 with status := 0x0021, outLen := 28, obuf := Memory.writeBytes [] 0 bytesD15, pending := [.encode] }

theorem encodeNext_steps : ∃ t, step encodeNext = .next t ∧ t.outLen = 7 := ⟨_, rfl, by decide⟩

theorem witness_StatusStaysLegal :
    (StatusLegal encodeNext.status ∧ ∃ t, step encodeNext = .next t ∧ t.outLen = 7) ∧
    (StatusLegal (faultedState.setPending [.decode]).status ∧
      ∃ t, step (faultedState.setPending [.decode]) = .next t) :=
  ⟨⟨by constructor <;> decide, encodeNext_steps⟩, legal_faulted, _, rfl⟩

theorem witness_BuffersStayCanonical :
    BuffersCanonical encodeNext ∧ ∃ t, step encodeNext = .next t ∧ t.outLen = 7 :=
  ⟨⟨by decide, by decide⟩, encodeNext_steps⟩

theorem witness_OutputStaysPresent :
    OutputPresent encodeNext ∧ ∃ t, step encodeNext = .next t ∧ t.outLen = 7 := by
  refine ⟨⟨.inr ?_, ?_⟩, encodeNext_steps⟩ <;> decide

theorem witness_HeaderStaysPresent :
    HeaderPresent encodeNext ∧ encodeNext.status.result = resultOk ∧
    ∃ t, step encodeNext = .next t ∧ t.outLen = 7 :=
  ⟨fun _ => filled_marks hdrE1, by decide, encodeNext_steps⟩

theorem witness_UnwrittenStaysBlank :
    UnwrittenBlank (about (.setHdr [⟨.version, 7⟩])) ∧ ∃ t, step (about (.setHdr [⟨.version, 7⟩])) = .next t :=
  ⟨fun f _ => by cases f <;> rfl, _, rfl⟩

end Sys2Proof.Tests
end

section
/-! STATUS under the block's three ways of writing it (10_state.md R25 to R30): a report, a recorded fault and a reset each
leave it legal, so every step does. -/

namespace Sys2Proof.Safety

open Sys2Proof.Machine

/-- A report keeps STATUS legal when its three codes fit together (R25 to R27): FAULT and FAULT_CAUSE stand above them. -/
theorem StatusLegal.report {st : Status} (hst : StatusLegal st) {r e c : BitVec 2} (hr : r ≠ 0b11) (he : e ≠ 0b10)
    (hc : c ≠ 0b11) (herror : e = 0b00 ↔ r ≠ resultDecodeError) (hdecode : r = resultDecodeError → c = lastDecode)
    (hnone : r = 0b00 ↔ c = 0b00) : StatusLegal (st.report r e c) where
  result := by simpa using hr
  errCode := by simpa using he
  lastCmd := by simpa using hc
  reserved6 := by simpa using hst.reserved6
  reservedHigh := by simpa using hst.reservedHigh
  faultCause := by simpa using hst.faultCause
  cause_iff := by simpa using hst.cause_iff
  error_iff := by simpa using herror
  error_decode := by simpa using hdecode
  result_iff := by simpa using hnone

/-- Reporting the success of DECODE or ENCODE keeps STATUS legal. -/
theorem StatusLegal.reportOk {s : State} (hs : StatusLegal s.status) {cmd : BitVec 2}
    (hcmd : cmd = lastDecode ∨ cmd = lastEncode) : StatusLegal (s.reportOk cmd).status := by
  rcases hcmd with rfl | rfl <;>
    exact hs.report (by decide) (by decide) (by decide) (by decide) (by decide) (by decide)

/-- A decode error that can occur (R202: not INVALID_VERSION) keeps STATUS legal. -/
theorem StatusLegal.raiseDecodeError {s : State} (hs : StatusLegal s.status) {e : DecodeError}
    (he : e ≠ .invalidVersion) : StatusLegal (s.raiseDecodeError e).status := by
  cases e with
  | invalidVersion => exact absurd rfl he
  | bufferTooSmall => exact hs.report (by decide) (by decide) (by decide) (by decide) (by decide) (by decide)
  | truncatedVariableField => exact hs.report (by decide) (by decide) (by decide) (by decide) (by decide) (by decide)

/-- Each fault's cause is neither NONE nor the reserved code (R24). -/
theorem faultCause_code_ne (f : FaultCause) : f.code ≠ 0b00 ∧ f.code ≠ 0b11 := by
  cases f <;> decide

/-- A sticky fault keeps STATUS legal: FAULT comes with a cause (R28, R29), and the last report stays (R206). -/
theorem StatusLegal.raiseFault {s : State} (hs : StatusLegal s.status) (f : FaultCause) :
    StatusLegal (s.raiseFault f).status where
  result := by simpa using hs.result
  errCode := by simpa using hs.errCode
  lastCmd := by simpa using hs.lastCmd
  reserved6 := by simpa using hs.reserved6
  reservedHigh := by simpa using hs.reservedHigh
  faultCause := by simpa using (faultCause_code_ne f).2
  cause_iff := by simpa using (faultCause_code_ne f).1
  error_iff := by simpa using hs.error_iff
  error_decode := by simpa using hs.error_decode
  result_iff := by simpa using hs.result_iff

/-- Reset leaves STATUS 0 (R230), which is legal. -/
theorem statusLegal_resetBlock (s : State) : StatusLegal s.resetBlock.status := by
  rw [State.resetBlock_status]
  constructor <;> decide

/-- Every command keeps STATUS legal. -/
theorem exec_keeps_statusLegal {i : Instr} {s t : State} (hs : StatusLegal s.status) (h : exec i s = .next t) :
    StatusLegal t.status := by
  rcases exec_next h with rfl | ⟨-, c, rfl⟩ | ⟨e, he, rfl⟩ | ⟨k, -, rfl⟩ | ⟨-, legal, rfl⟩
  · exact hs
  · exact hs.raiseFault c
  · exact hs.raiseDecodeError he
  · exact StatusLegal.reportOk (s := s.commitHdr k) hs (.inl rfl)
  · exact StatusLegal.reportOk (s := (s.setObuf _).setOutLen _) hs (.inr rfl)

/-- Every host access keeps STATUS legal: all but a command and a reset leave it unchanged (R22). -/
theorem performAccess_keeps_statusLegal {a : Access} {s t : State} (hs : StatusLegal s.status)
    (h : performAccess a s = .next t) : StatusLegal t.status := by
  rcases performAccess_next h with ⟨v, rfl⟩ | ⟨c, -, hc⟩ | rfl | ⟨n, -, rfl⟩ | ⟨f, v, -, rfl⟩ |
    ⟨o, v, -, -, rfl⟩ | ⟨-, rfl⟩
  case inr.inl => exact exec_keeps_statusLegal hs hc
  case inr.inr.inr.inr.inr.inr => exact statusLegal_resetBlock s
  all_goals exact hs

end Sys2Proof.Safety

section
open Sys2Proof.Machine Sys2Proof.Safety

/-- Settles O56: a step makes at most one host access, and each access keeps STATUS legal. -/
theorem statusStaysLegal : Obligations.StatusStaysLegal := by
  intro s t hs hstep
  exact step_keeps (P := fun s => StatusLegal s.status) (fun _ _ hp => hp)
    (fun _ _ _ hp ha => performAccess_keeps_statusLegal hp ha) hs hstep

end
end

section
/-! DECODE looks only at the announced header: bytes and an IN_LEN beyond RAW_SIZE play no part (20_memory.md R63). -/

namespace Sys2Proof.Machine

/-- A run of reads depends on its own bytes only. -/
theorem Memory.readBytes_congr {m m' : Memory} {a n : Nat} (h : ∀ k < n, m'.read (a + k) = m.read (a + k)) :
    m'.readBytes a n = m.readBytes a n := by
  induction n generalizing a with
  | zero => rfl
  | succ n ih =>
    have hhead : m'.read a = m.read a := h 0 n.succ_pos
    have htail : m'.readBytes (a + 1) n = m.readBytes (a + 1) n :=
      ih fun k hk => by simpa [Nat.add_assoc, Nat.add_comm 1] using h (k + 1) (by omega)
    rw [Memory.readBytes, Memory.readBytes, hhead, htail]

/-- A parsed header also parses in any buffer that offers its RAW_SIZE bytes. -/
theorem ParsesTo.of_same_bytes {n n' : BitVec 32} {m m' : Memory} {h : Hdr} (hp : ParsesTo n m h)
    (hn : h.rawSize ≤ n'.toNat) (hm : ∀ a < h.rawSize, m'.read a = m.read a) : ParsesTo n' m' h := by
  obtain ⟨b0, raw, b3, src, tsn, dst, h0, hr, h3, hs, ht, hd, -, rfl⟩ := hp
  simp only [Hdr.rawSize, headerOf, Config.fixedPrefixSize] at hn hm
  have hrun : ∀ a w bs, a + w ≤ 4 + 2 * (bfUnpack3 b3).entityLen.toNat + (bfUnpack3 b3).tsnLen.toNat →
      m.readBytes a w = .ok bs → m'.readBytes a w = .ok bs := fun a w bs hle hbs =>
    (Memory.readBytes_congr fun k hk => hm (a + k) (by omega)).trans hbs
  exact ⟨b0, raw, b3, src, tsn, dst, (hm 0 (by omega)).trans h0, hrun _ _ _ (by omega) hr,
    (hm 3 (by omega)).trans h3, hrun _ _ _ (by omega) hs, hrun _ _ _ (by omega) ht, hrun _ _ _ (by omega) hd,
    by omega, rfl⟩

/-- On a running block, DECODE of a header that parses commits it and reports OK. -/
theorem execDecode_of_parsesTo {s : State} {k : Hdr} (hf : s.status.fault = 0) (hp : ParsesTo s.inLen s.ibuf k) :
    execDecode s = .next ((s.commitHdr k).reportOk lastDecode) := by
  rw [execDecode, runUnlessFaulted_of_running hf, decodeCommandBody, parseHeader_eq_ok.mpr hp]

/-- A DECODE of a running block that reports OK has parsed a header and committed it. -/
theorem parsesTo_of_execDecode_ok {s t : State} (hf : s.status.fault = 0) (h : execDecode s = .next t)
    (hok : t.status.result = resultOk) :
    ParsesTo s.inLen s.ibuf t.hdr ∧ t = (s.commitHdr t.hdr).reportOk lastDecode := by
  rcases execDecode_next h with ⟨hf', -⟩ | ⟨-, e, -, -, rfl⟩ | ⟨-, k, hp, rfl⟩
  · simp [hf] at hf'
  · simp [resultOk, resultDecodeError] at hok
  · exact ⟨hp, rfl⟩

end Sys2Proof.Machine

open Sys2Proof.Machine

/-- Settles O38: the header that parsed from `s` parses from the other buffer too, and DECODE commits the same header. -/
theorem surplusBytesIgnored : Obligations.SurplusBytesIgnored := by
  intro s t m n hf hdec hok hn hm
  obtain ⟨hp, ht⟩ := parsesTo_of_execDecode_ok hf hdec hok
  have hp' : ParsesTo n m t.hdr := hp.of_same_bytes hn hm
  refine (execDecode_of_parsesTo (s := { s with ibuf := m, inLen := n }) hf hp').trans ?_
  rw [ht]
  rfl

end

section
/-! The command decoder and encoder are inverse maps between the 256 codes and the commands (30_encoding.md R80, R81). -/

namespace Sys2Proof

/-- Every code is the code of the command it decodes to: all its bits are kept. A fact about the 256 codes, checked one by
one. -/
@[simp] theorem encodeCommand_decodeCommand (c : Byte) : encodeCommand (decodeCommand c) = c := by
  revert c
  decide

/-- A command's code decodes to that command, for every value of the bits its row leaves open. -/
@[simp] theorem decodeCommand_encodeCommand (i : Instr) : decodeCommand (encodeCommand i) = i := by
  cases i with
  | nop | decode | encode | reserved03 => rfl
  | reserved04 low | reserved08 low | reserved10 low | reserved20 low | reserved40 low | reserved80 low =>
    revert low
    decide

/-- A code names a command exactly when it is that command's code. -/
theorem decodeCommand_eq_iff {c : Byte} {i : Instr} : decodeCommand c = i ↔ c = encodeCommand i :=
  ⟨fun h => by rw [← h, encodeCommand_decodeCommand], fun h => by rw [h, decodeCommand_encodeCommand]⟩

/-- The opcode table covers a command's code by the command's own row, and by no other. -/
theorem opcodeTable_filter_covers_encodeCommand (i : Instr) :
    opcodeTable.filter (fun r => r.covers (encodeCommand i)) = [i.row] := by
  cases i with
  | nop => exact Laws.TableRow.nop
  | decode => exact Laws.TableRow.decode
  | encode => exact Laws.TableRow.encode
  | reserved03 => exact Laws.TableRow.reserved03
  | reserved04 low => exact Laws.TableRow.reserved04 low
  | reserved08 low => exact Laws.TableRow.reserved08 low
  | reserved10 low => exact Laws.TableRow.reserved10 low
  | reserved20 low => exact Laws.TableRow.reserved20 low
  | reserved40 low => exact Laws.TableRow.reserved40 low
  | reserved80 low => exact Laws.TableRow.reserved80 low

end Sys2Proof

open Sys2Proof

/-- Settles O2: each code is the code of the command it decodes to, and the table has one row for each command's code. -/
theorem everyCodeIsOneCommand : Obligations.EveryCodeIsOneCommand := by
  refine ⟨fun c => ?_, encodeCommand_decodeCommand,
    fun c => ⟨decodeCommand_eq_iff, decodeCommand_eq_iff, decodeCommand_eq_iff⟩⟩
  have hrow := opcodeTable_filter_covers_encodeCommand (decodeCommand c)
  rwa [encodeCommand_decodeCommand] at hrow

end

section
/-! The big-endian unit (40_be_unit.md): a run of written bytes and the number it holds, both ways. -/

namespace Sys2Proof.Machine

/-- A byte more in front is the byte of the value that lies above the others (R116). -/
theorem beBytes_succ (w v : Nat) :
    beBytes (w + 1) v = BitVec.ofNat 8 (v / 2 ^ (8 * w) % 256) :: beBytes w v := by
  rw [beBytes, Nat.shiftRight_eq_div_pow, show (0xFF : Nat) = 2 ^ 8 - 1 by rfl, Nat.and_two_pow_sub_one_eq_mod]

/-- Byte `k` of the `w` big-endian bytes of a value. -/
theorem beBytes_getElem? {w k : Nat} (v : Nat) (hk : k < w) :
    (beBytes w v)[k]? = some (BitVec.ofNat 8 (v / 2 ^ (8 * (w - 1 - k)) % 256)) := by
  induction w generalizing k with
  | zero => omega
  | succ w ih =>
    rw [beBytes_succ]
    cases k with
    | zero => simp
    | succ k => rw [List.getElem?_cons_succ, ih (by omega), show w + 1 - 1 - (k + 1) = w - 1 - k by omega]

/-- What the bytes of a value hold: the value, as far as it fits. -/
theorem beValue_beBytes (w v : Nat) : beValue (beBytes w v) = v % 2 ^ (8 * w) := by
  induction w with
  | zero => simp [beBytes, beValue, beAppend, Nat.mod_one]
  | succ w ih =>
    have hpow : (256 : Nat) ^ w = 2 ^ (8 * w) := by rw [pow_mul]; rfl
    have hnext : 2 ^ (8 * (w + 1)) = 2 ^ (8 * w) * 256 := pow_add 2 (8 * w) 8
    rw [beBytes_succ, beValue_cons, ih, beBytes_length, hpow, BitVec.toNat_ofNat, Nat.mod_mod, hnext, Nat.mod_mul]
    ring

/-- What lies above all bytes but the first is the first. -/
theorem beValue_cons_div (b : Byte) (bs : List Byte) : beValue (b :: bs) / 256 ^ bs.length = b.toNat := by
  have hlow : beValue bs < 256 ^ bs.length := by simpa [pow_mul] using beValue_lt bs
  rw [beValue_cons, Nat.mul_comm, Nat.mul_add_div (by positivity), Nat.div_eq_of_lt hlow, Nat.add_zero]

/-- Bytes are known by their number and the value they hold. -/
theorem beValue_injective {xs ys : List Byte} (hlen : xs.length = ys.length) (hval : beValue xs = beValue ys) :
    xs = ys := by
  induction xs generalizing ys with
  | nil => exact (List.length_eq_zero_iff.mp hlen.symm).symm
  | cons x xs ih =>
    cases ys with
    | nil => simp at hlen
    | cons y ys =>
      have hlen : xs.length = ys.length := by simpa using hlen
      have hhead : x.toNat = y.toNat := by
        rw [← beValue_cons_div x xs, hval, hlen, beValue_cons_div]
      have htail : beValue xs = beValue ys := by
        rw [beValue_cons, beValue_cons, hhead, hlen] at hval
        exact Nat.add_left_cancel hval
      rw [BitVec.eq_of_toNat_eq hhead, ih hlen htail]

/-- The bytes of the value that a sequence of bytes holds are the sequence. -/
theorem beBytes_beValue (bs : List Byte) : beBytes bs.length (beValue bs) = bs :=
  beValue_injective (beBytes_length _ _) (by rw [beValue_beBytes, Nat.mod_eq_of_lt (beValue_lt bs)])

/-- Bytes just written read back. -/
theorem Memory.readBytes_writeBytes (m : Memory) (a : Nat) (bs : List Byte) :
    (m.writeBytes a bs).readBytes a bs.length = .ok bs := by
  refine Memory.readBytes_eq_ok.mpr ⟨rfl, fun k hk => ?_⟩
  rw [Memory.read_writeBytes, if_pos (by omega), Nat.add_sub_cancel_left]

/-- BE_PACK leaves every byte outside its field. -/
theorem read_bePack_outside (m : Memory) {a w v o : Nat} (fits : packFits w v) (ho : o < a ∨ a + w ≤ o) :
    (bePack m a w v fits).read o = m.read o := by
  rw [bePack, Memory.read_writeBytes, beBytes_length, if_neg (by omega)]

/-- BE_PACK writes each byte of its field, most significant first. -/
theorem read_bePack_inside (m : Memory) {a w v k : Nat} (fits : packFits w v) (hk : k < w) :
    (bePack m a w v fits).read (a + k) = some (BitVec.ofNat 8 (v / 2 ^ (8 * (w - 1 - k)) % 256)) := by
  rw [bePack, Memory.read_writeBytes, beBytes_length, if_pos (by omega), Nat.add_sub_cancel_left,
    beBytes_getElem? v hk]

/-- BE_EXTRACT gives back what BE_PACK wrote (R119). -/
theorem beExtract_bePack (m : Memory) {a w v : Nat} (fits : packFits w v) :
    beExtract (bePack m a w v fits) a w = .ok v := by
  obtain ⟨-, -, hv⟩ := fits
  have hread := m.readBytes_writeBytes a (beBytes w v)
  rw [beBytes_length] at hread
  exact beExtract_eq_ok.mpr ⟨_, hread, by rw [beValue_beBytes, Nat.mod_eq_of_lt hv]⟩

/-- BE_EXTRACT stops at the first unwritten byte of its field. -/
theorem beExtract_of_unwritten {m : Memory} {a w k : Nat} (hk : k < w) (hnone : m.read (a + k) = none)
    (hfirst : ∀ j < k, m.read (a + j) ≠ none) :
    beExtract m a w = .error (.modelFault (.unwrittenRead (.ibuf (a + k)))) := by
  refine beExtract_eq_error.mpr ⟨a + k, Memory.readBytes_eq_error.mpr ⟨by omega, by omega, hnone, ?_⟩, rfl⟩
  intro o hao hok
  obtain ⟨j, rfl⟩ := Nat.exists_eq_add_of_le hao
  exact hfirst j (by omega)

/-- Where the input offers the whole field, BE_EXTRACT_CHECKED stops there too. -/
theorem beExtractChecked_of_unwritten {n : BitVec 32} {m : Memory} {a w k : Nat} (hn : a + w ≤ n.toNat) (hk : k < w)
    (hnone : m.read (a + k) = none) (hfirst : ∀ j < k, m.read (a + j) ≠ none) :
    beExtractChecked n m a w = .error (.modelFault (.unwrittenRead (.ibuf (a + k)))) :=
  beExtractChecked_eq_error.mpr (.inr ⟨hn, beExtract_eq_error.mp (beExtract_of_unwritten hk hnone hfirst)⟩)

end Sys2Proof.Machine

namespace Sys2Proof.Claims

open Sys2Proof.Machine

/-- The `w` bytes of `b` from offset `a`, as a list. -/
def bytesAt (b : Nat → Byte) (a w : Nat) : List Byte :=
  (List.range w).map fun k => b (a + k)

@[simp] theorem bytesAt_length (b : Nat → Byte) (a w : Nat) : (bytesAt b a w).length = w := by
  simp [bytesAt]

theorem bytesAt_getElem? (b : Nat → Byte) {a w k : Nat} (hk : k < w) : (bytesAt b a w)[k]? = some (b (a + k)) := by
  simp [bytesAt, hk]

theorem bytesAt_succ (b : Nat → Byte) (a w : Nat) : bytesAt b a (w + 1) = b a :: bytesAt b (a + 1) w := by
  simp [bytesAt, List.range_succ_eq_map, Nat.add_assoc, Nat.add_comm 1]

theorem bigEndian_succ (b : Nat → Byte) (a w : Nat) :
    bigEndian b a (w + 1) = (b a).toNat * 2 ^ (8 * w) + bigEndian b (a + 1) w := by
  simp [bigEndian, List.range_succ_eq_map, Function.comp_def, Nat.add_assoc, Nat.add_comm 1, Nat.sub_sub]

/-- R110's sum is the value that BE_EXTRACT's loop computes. -/
theorem beValue_bytesAt (b : Nat → Byte) (a w : Nat) : beValue (bytesAt b a w) = bigEndian b a w := by
  induction w generalizing a with
  | zero => rfl
  | succ w ih => rw [bytesAt_succ, beValue_cons, ih, bytesAt_length, bigEndian_succ, pow_mul]; rfl

theorem bigEndian_lt (b : Nat → Byte) (a w : Nat) : bigEndian b a w < 2 ^ (8 * w) := by
  simpa [beValue_bytesAt] using beValue_lt (bytesAt b a w)

/-- A buffer holds a run of bytes exactly when reading the run succeeds and gives them. -/
theorem holds_iff_readBytes {m : Memory} {a w : Nat} {b : Nat → Byte} :
    Holds m a w b ↔ m.readBytes a w = .ok (bytesAt b a w) := by
  rw [Memory.readBytes_eq_ok]
  constructor
  · exact fun h => ⟨bytesAt_length b a w, fun k hk => (h k hk).trans (bytesAt_getElem? b hk).symm⟩
  · exact fun ⟨_, h⟩ k hk => (h k hk).trans (bytesAt_getElem? b hk)

/-- BE_EXTRACT of bytes that are there is R110's sum of them. -/
theorem beExtract_of_holds {m : Memory} {a w : Nat} {b : Nat → Byte} (h : Holds m a w b) :
    beExtract m a w = .ok (bigEndian b a w) :=
  beExtract_eq_ok.mpr ⟨_, holds_iff_readBytes.mp h, (beValue_bytesAt b a w).symm⟩

/-- BE_EXTRACT_CHECKED of a field that the input offers and that is there. -/
theorem beExtractChecked_of_holds {n : BitVec 32} {m : Memory} {a w : Nat} {b : Nat → Byte} (hn : a + w ≤ n.toNat)
    (h : Holds m a w b) : beExtractChecked n m a w = .ok (bigEndian b a w, a + w) :=
  beExtractChecked_eq_ok.mpr ⟨hn, rfl, _, holds_iff_readBytes.mp h, (beValue_bytesAt b a w).symm⟩

/-- BE_PACK of the value that a run of bytes holds writes those bytes (R119). -/
theorem holds_bePack_bigEndian (m : Memory) {a w : Nat} {b : Nat → Byte} (fits : packFits w (bigEndian b a w)) :
    Holds (bePack m a w (bigEndian b a w) fits) a w b := by
  have hbytes : beBytes w (bigEndian b a w) = bytesAt b a w := by
    simpa [beValue_bytesAt] using beBytes_beValue (bytesAt b a w)
  have hread := m.readBytes_writeBytes a (bytesAt b a w)
  rw [bytesAt_length] at hread
  rw [holds_iff_readBytes, bePack, hbytes, hread]

end Sys2Proof.Claims

open Sys2Proof.Machine Sys2Proof.Claims

/-- Settles O23: the loop's value of the written bytes is R110's sum, by induction on the width. -/
theorem beExtractIsSum : Obligations.BeExtractIsSum :=
  ⟨fun _ a w b h => ⟨beExtract_of_holds h, bigEndian_lt b a w⟩,
    fun _ _ _ _ hk hnone hfirst => beExtract_of_unwritten hk hnone hfirst⟩

/-- Settles O24: the field's end is compared with IN_LEN first; inside it the outcome is BE_EXTRACT's. -/
theorem beExtractChecksBounds : Obligations.BeExtractChecksBounds := by
  intro n m a w
  refine ⟨fun hpast => ?_, fun hn b h => ?_, fun hn k hk hnone hfirst => ?_⟩
  · exact beExtractChecked_eq_error.mpr (.inl ⟨hpast, rfl⟩)
  · exact ⟨beExtractChecked_of_holds hn h, bigEndian_lt b a w⟩
  · exact beExtractChecked_of_unwritten hn hk hnone hfirst

/-- Settles O25: BE_PACK writes the value's bytes as one run, and byte `k` of the run is R116's. -/
theorem bePackWritesBytes : Obligations.BePackWritesBytes :=
  fun m _ _ _ fits => ⟨fun _ hk => read_bePack_inside m fits hk, fun _ ho => read_bePack_outside m fits ho⟩

/-- Settles O26: a value that fits is what its bytes hold, and a run of bytes is the bytes of the value it holds. -/
theorem bigEndianInverse : Obligations.BigEndianInverse := by
  refine ⟨fun m a w v fits => beExtract_bePack m fits, fun m m' a w b hmin hmax h => ?_⟩
  have fits : packFits w (bigEndian b a w) := ⟨hmin, hmax, bigEndian_lt b a w⟩
  exact ⟨bigEndian b a w, fits, beExtract_of_holds h, holds_bePack_bigEndian m' fits⟩

end

section
/-! The field codec (41_field_codec.md): the widths, the CRC adjustments, and bytes 0 and 3 as numbers, both ways. -/

namespace Sys2Proof.Machine

/-- A bit field is what division and remainder leave of the number. -/
theorem toNat_extractLsb'_eq_div_mod {n : Nat} (x : BitVec n) (k w : Nat) :
    (x.extractLsb' k w).toNat = x.toNat / 2 ^ k % 2 ^ w := by
  rw [BitVec.extractLsb'_toNat, Nat.shiftRight_eq_div_pow]

/-- Fields joined as bits are added as numbers, the upper one shifted past the lower. -/
theorem toNat_append_eq_add {m n : Nat} (x : BitVec m) (y : BitVec n) :
    (x ++ y).toNat = x.toNat * 2 ^ n + y.toNat := by
  rw [BitVec.toNat_append, ← Nat.shiftLeft_add_eq_or_of_lt y.isLt, Nat.shiftLeft_eq]

/-- A width is legal from 1 to 8 (R135). -/
theorem widthLegal_iff {w : BitVec 4} : widthLegal w ↔ 1 ≤ w.toNat ∧ w.toNat ≤ 8 := Iff.rfl

@[simp] theorem lenDecode_toNat (c : BitVec 3) : (lenDecode c).toNat = c.toNat + 1 := by
  have hc := c.isLt
  rw [lenDecode, BitVec.toNat_add, BitVec.toNat_setWidth, show (1 : BitVec 4).toNat = 1 by rfl]
  omega

@[simp] theorem lenEncode_toNat (w : BitVec 4) (legal : widthLegal w) : (lenEncode w legal).toNat = w.toNat - 1 := by
  obtain ⟨hmin, hmax⟩ := widthLegal_iff.mp legal
  rw [lenEncode, BitVec.toNat_setWidth, BitVec.toNat_sub_of_le hmin, show (1 : BitVec 4).toNat = 1 by rfl]
  omega

section
variable (b : Byte)

@[simp] theorem bfUnpack0_version_toNat : (bfUnpack0 b).version.toNat = b.toNat / 32 := by
  have hb := b.isLt
  rw [bfUnpack0, toNat_extractLsb'_eq_div_mod]
  omega

@[simp] theorem bfUnpack0_pduType_toNat : (bfUnpack0 b).pduType.toNat = b.toNat / 16 % 2 :=
  toNat_extractLsb'_eq_div_mod b 4 1

@[simp] theorem bfUnpack0_direction_toNat : (bfUnpack0 b).direction.toNat = b.toNat / 8 % 2 :=
  toNat_extractLsb'_eq_div_mod b 3 1

@[simp] theorem bfUnpack0_txMode_toNat : (bfUnpack0 b).txMode.toNat = b.toNat / 4 % 2 :=
  toNat_extractLsb'_eq_div_mod b 2 1

@[simp] theorem bfUnpack0_crcFlag_toNat : (bfUnpack0 b).crcFlag.toNat = b.toNat / 2 % 2 :=
  toNat_extractLsb'_eq_div_mod b 1 1

@[simp] theorem bfUnpack0_largeFile_toNat : (bfUnpack0 b).largeFile.toNat = b.toNat % 2 := by
  rw [bfUnpack0, toNat_extractLsb'_eq_div_mod]
  omega

end

/-- BF_PACK0 as a sum of the fields, each at its place (R85). -/
theorem bfPack0_toNat (f : Byte0) :
    (bfPack0 f).toNat = f.version.toNat * 32 + f.pduType.toNat * 16 + f.direction.toNat * 8 + f.txMode.toNat * 4 +
      f.crcFlag.toNat * 2 + f.largeFile.toNat := by
  simp only [bfPack0, toNat_append_eq_add]
  omega

/-- Byte 0's fields are known by their numbers. -/
theorem byte0_eq_of_toNat_eq {f g : Byte0} (hv : f.version.toNat = g.version.toNat)
    (hp : f.pduType.toNat = g.pduType.toNat) (hd : f.direction.toNat = g.direction.toNat)
    (ht : f.txMode.toNat = g.txMode.toNat) (hc : f.crcFlag.toNat = g.crcFlag.toNat)
    (hl : f.largeFile.toNat = g.largeFile.toNat) : f = g := by
  cases f
  cases g
  simp only [Byte0.mk.injEq]
  exact ⟨BitVec.eq_of_toNat_eq hv, BitVec.eq_of_toNat_eq hp, BitVec.eq_of_toNat_eq hd, BitVec.eq_of_toNat_eq ht,
    BitVec.eq_of_toNat_eq hc, BitVec.eq_of_toNat_eq hl⟩

@[simp] theorem bfPack0_bfUnpack0 (b : Byte) : bfPack0 (bfUnpack0 b) = b := by
  apply BitVec.eq_of_toNat_eq
  simp only [bfPack0_toNat, bfUnpack0_version_toNat, bfUnpack0_pduType_toNat, bfUnpack0_direction_toNat,
    bfUnpack0_txMode_toNat, bfUnpack0_crcFlag_toNat, bfUnpack0_largeFile_toNat]
  omega

@[simp] theorem bfUnpack0_bfPack0 (f : Byte0) : bfUnpack0 (bfPack0 f) = f := by
  have hp := f.pduType.isLt
  have hd := f.direction.isLt
  have ht := f.txMode.isLt
  have hc := f.crcFlag.isLt
  have hl := f.largeFile.isLt
  apply byte0_eq_of_toNat_eq <;> simp [bfPack0_toNat] <;> omega

section
variable (b : Byte)

@[simp] theorem bfUnpack3_segCtrl_toNat : (bfUnpack3 b).segCtrl.toNat = b.toNat / 128 := by
  have hb := b.isLt
  rw [bfUnpack3, toNat_extractLsb'_eq_div_mod]
  omega

@[simp] theorem bfUnpack3_entityLen_toNat : (bfUnpack3 b).entityLen.toNat = b.toNat / 16 % 8 + 1 := by
  rw [bfUnpack3, lenDecode_toNat, toNat_extractLsb'_eq_div_mod]
  rfl

@[simp] theorem bfUnpack3_segMeta_toNat : (bfUnpack3 b).segMeta.toNat = b.toNat / 8 % 2 :=
  toNat_extractLsb'_eq_div_mod b 3 1

@[simp] theorem bfUnpack3_tsnLen_toNat : (bfUnpack3 b).tsnLen.toNat = b.toNat % 8 + 1 := by
  rw [bfUnpack3, lenDecode_toNat, toNat_extractLsb'_eq_div_mod]
  omega

end

/-- BF_PACK3 as a sum of the flags and the widths' codes, each at its place (R87). -/
theorem bfPack3_toNat (f : Byte3) (he : widthLegal f.entityLen) (ht : widthLegal f.tsnLen) :
    (bfPack3 f he ht).toNat = f.segCtrl.toNat * 128 + (f.entityLen.toNat - 1) * 16 + f.segMeta.toNat * 8 +
      (f.tsnLen.toNat - 1) := by
  simp only [bfPack3, toNat_append_eq_add, lenEncode_toNat]
  omega

/-- Byte 3's fields are known by their numbers. -/
theorem byte3_eq_of_toNat_eq {f g : Byte3} (hs : f.segCtrl.toNat = g.segCtrl.toNat)
    (he : f.entityLen.toNat = g.entityLen.toNat) (hm : f.segMeta.toNat = g.segMeta.toNat)
    (ht : f.tsnLen.toNat = g.tsnLen.toNat) : f = g := by
  cases f
  cases g
  simp only [Byte3.mk.injEq]
  exact ⟨BitVec.eq_of_toNat_eq hs, BitVec.eq_of_toNat_eq he, BitVec.eq_of_toNat_eq hm, BitVec.eq_of_toNat_eq ht⟩

@[simp] theorem bfPack3_bfUnpack3 (b : Byte) (he : widthLegal (bfUnpack3 b).entityLen)
    (ht : widthLegal (bfUnpack3 b).tsnLen) : bfPack3 (bfUnpack3 b) he ht = b := by
  apply BitVec.eq_of_toNat_eq
  simp only [bfPack3_toNat, bfUnpack3_segCtrl_toNat, bfUnpack3_entityLen_toNat, bfUnpack3_segMeta_toNat,
    bfUnpack3_tsnLen_toNat]
  omega

@[simp] theorem bfUnpack3_bfPack3 (f : Byte3) (he : widthLegal f.entityLen) (ht : widthLegal f.tsnLen) :
    bfUnpack3 (bfPack3 f he ht) = f := by
  have hentity := widthLegal_iff.mp he
  have htsn := widthLegal_iff.mp ht
  have hm := f.segMeta.isLt
  apply byte3_eq_of_toNat_eq <;> simp [bfPack3_toNat] <;> omega

/-- With the CRC present, the trailer's 4 bytes are taken from the raw length (R140). -/
@[simp] theorem crcAdjustDecode_one (raw : BitVec 16) : crcAdjustDecode raw 1 = raw - 4 := rfl

@[simp] theorem crcAdjustDecode_zero (raw : BitVec 16) : crcAdjustDecode raw 0 = raw := rfl

/-- With the CRC present, the trailer's 4 bytes are added to DATA_LEN (R141). -/
@[simp] theorem crcAdjustEncode_one (dlen : BitVec 16) : crcAdjustEncode dlen 1 = dlen + 4 := rfl

@[simp] theorem crcAdjustEncode_zero (dlen : BitVec 16) : crcAdjustEncode dlen 0 = dlen := rfl

@[simp] theorem crcAdjustDecode_crcAdjustEncode (x : BitVec 16) (crc : Bit) :
    crcAdjustDecode (crcAdjustEncode x crc) crc = x := by
  rcases BitVec.eq_zero_or_eq_one crc with rfl | rfl
  · rfl
  · exact BitVec.add_sub_cancel x 4

@[simp] theorem crcAdjustEncode_crcAdjustDecode (x : BitVec 16) (crc : Bit) :
    crcAdjustEncode (crcAdjustDecode x crc) crc = x := by
  rcases BitVec.eq_zero_or_eq_one crc with rfl | rfl
  · rfl
  · exact BitVec.sub_add_cancel x 4

/-- On a running block with every field written, ENCODE of an illegal header raises ENC_PRECOND (R209). -/
theorem execEncode_of_not_legal {s : State} (hf : s.status.fault = 0) (hm : ∀ f, s.marks.get f = true)
    (hillegal : ¬ s.hdr.Legal) : execEncode s = .next (s.raiseFault .encPrecond) := by
  rw [execEncode, runUnlessFaulted_of_running hf, encodeCommandBody, readHeader_eq_ok.mpr ⟨hm, rfl⟩]
  exact dif_neg hillegal

end Sys2Proof.Machine

namespace Sys2Proof.Claims

open Sys2Proof.Machine

/-- A sticky fault writes FAULT and FAULT_CAUSE and nothing else (R206). -/
theorem faultRaised_raiseFault (s : State) (c : FaultCause) : FaultRaised s c.code (s.raiseFault c) := by
  simp [FaultRaised, State.raiseFault]

end Sys2Proof.Claims

open Sys2Proof.Machine Sys2Proof.Claims

/-- Settles O16: adding 1 to a 3-bit code does not wrap in 4 bits, and the width is legal. -/
theorem lengthCodeDecodes : Obligations.LengthCodeDecodes := fun c =>
  ⟨lenDecode_toNat c, lenDecode_legal c⟩

/-- Settles O17: a width in range has its code; one out of range makes the header illegal, and ENCODE faults. -/
theorem lengthCodeEncodes : Obligations.LengthCodeEncodes := by
  refine ⟨fun w legal => ?_, fun s hf hm hwidth => ?_⟩
  · rw [lenEncode_toNat, Nat.sub_add_cancel (widthLegal_iff.mp legal).1]
  · have hillegal : ¬ s.hdr.Legal := by
      rintro ⟨hentity, htsn, -⟩
      rw [widthLegal_iff] at hentity htsn
      omega
    exact ⟨_, execEncode_of_not_legal hf hm hillegal, faultRaised_raiseFault s .encPrecond⟩

/-- Settles O18: the adjustments as numbers, with the wrap of 16-bit subtraction and addition. -/
theorem crcAdjustsByFour : Obligations.CrcAdjustsByFour := by
  refine ⟨fun raw => ⟨?_, crcAdjustDecode_zero raw⟩, fun dlen => ⟨?_, crcAdjustEncode_zero dlen⟩⟩
  · rw [crcAdjustDecode_one, BitVec.toNat_sub, show (4 : BitVec 16).toNat = 4 by rfl]
    omega
  · rw [crcAdjustEncode_one, BitVec.toNat_add]
    rfl

/-- Settles O19: 16-bit addition and subtraction of 4 cancel, wrap included. -/
theorem crcAdjustmentsInverse : Obligations.CrcAdjustmentsInverse :=
  ⟨fun crc x => ⟨crcAdjustDecode_crcAdjustEncode x crc, crcAdjustEncode_crcAdjustDecode x crc⟩,
    fun x => by rw [crcAdjustEncode_one, BitVec.add_comm, BitVec.add_sub_cancel]⟩

/-- Settles O20: byte 0's fields by position, and the sum they pack to. -/
theorem byteZeroLayout : Obligations.ByteZeroLayout :=
  ⟨fun b => ⟨bfUnpack0_version_toNat b, bfUnpack0_pduType_toNat b, bfUnpack0_direction_toNat b,
    bfUnpack0_txMode_toNat b, bfUnpack0_crcFlag_toNat b, bfUnpack0_largeFile_toNat b⟩, bfPack0_toNat⟩

/-- Settles O21: byte 3's flags and widths by position, and the sum they pack to. -/
theorem byteThreeLayout : Obligations.ByteThreeLayout :=
  ⟨fun b => ⟨bfUnpack3_segCtrl_toNat b, bfUnpack3_entityLen_toNat b, bfUnpack3_segMeta_toNat b,
    bfUnpack3_tsnLen_toNat b⟩, bfPack3_toNat⟩

/-- Settles O22: a byte and its fields are each known by their numbers; the widths that byte 3 unpacks to are legal. -/
theorem byteMapsBijective : Obligations.ByteMapsBijective :=
  ⟨bfPack0_bfUnpack0, bfUnpack0_bfPack0,
    fun b => ⟨(bfUnpack3_legal b).1, (bfUnpack3_legal b).2, bfPack3_bfUnpack3 b _ _⟩, bfUnpack3_bfPack3⟩

end

section
/-! A header on the wire (30_encoding.md R84): a header parses from a buffer exactly when it is legal and the buffer holds its
bytes. Both round trips of DECODE and ENCODE rest on this. -/

namespace Sys2Proof.Machine

/-- The bytes stand in the buffer, all written, from offset `a` up. -/
def Memory.HoldsBytes (m : Memory) (a : Nat) (bs : List Byte) : Prop :=
  ∀ k < bs.length, m.read (a + k) = bs[k]?

theorem Memory.readBytes_eq_ok_iff_holdsBytes {m : Memory} {a n : Nat} {bs : List Byte} :
    m.readBytes a n = .ok bs ↔ bs.length = n ∧ m.HoldsBytes a bs := by
  rw [Memory.readBytes_eq_ok]
  exact and_congr_right fun hlen => by rw [Memory.HoldsBytes, hlen]

theorem Memory.holdsBytes_append {m : Memory} {a : Nat} {xs ys : List Byte} :
    m.HoldsBytes a (xs ++ ys) ↔ m.HoldsBytes a xs ∧ m.HoldsBytes (a + xs.length) ys := by
  constructor
  · intro h
    refine ⟨fun k hk => ?_, fun k hk => ?_⟩
    · rw [h k (by simp; omega), List.getElem?_append_left hk]
    · rw [Nat.add_assoc, h _ (by simpa using hk), List.getElem?_append_right (by omega), Nat.add_sub_cancel_left]
  · rintro ⟨hx, hy⟩ k hk
    rcases Nat.lt_or_ge k xs.length with hlt | hge
    · rw [hx k hlt, List.getElem?_append_left hlt]
    · obtain ⟨j, rfl⟩ := Nat.exists_eq_add_of_le hge
      rw [← Nat.add_assoc, hy j (by simpa using hk), List.getElem?_append_right hge, Nat.add_sub_cancel_left]

theorem Memory.holdsBytes_cons {m : Memory} {a : Nat} {x : Byte} {xs : List Byte} :
    m.HoldsBytes a (x :: xs) ↔ m.read a = some x ∧ m.HoldsBytes (a + 1) xs := by
  have hone : m.HoldsBytes a [x] ↔ m.read a = some x := by simp [Memory.HoldsBytes]
  rw [← List.singleton_append, Memory.holdsBytes_append, hone, List.length_singleton]

theorem Memory.HoldsBytes.congr {m m' : Memory} {bs : List Byte} (h : m.HoldsBytes 0 bs)
    (hsame : ∀ k < bs.length, m'.read k = m.read k) : m'.HoldsBytes 0 bs := fun k hk => by
  rw [← h k hk, Nat.zero_add, hsame k hk]

/-- A held byte has been written. -/
theorem Memory.HoldsBytes.read_ne_none {m : Memory} {bs : List Byte} {k : Nat} (h : m.HoldsBytes 0 bs)
    (hk : k < bs.length) : m.read k ≠ none := by
  rw [← Nat.zero_add k, h k hk, List.getElem?_eq_getElem hk]
  exact Option.some_ne_none _

theorem Memory.holdsBytes_writeBytes (m : Memory) (a : Nat) (bs : List Byte) : (m.writeBytes a bs).HoldsBytes a bs :=
  (Memory.readBytes_eq_ok_iff_holdsBytes.mp (m.readBytes_writeBytes a bs)).2

/-- Byte `k` of a held big-endian field (R116). -/
theorem Memory.HoldsBytes.read_beBytes {m : Memory} {a w v : Nat} (h : m.HoldsBytes a (beBytes w v)) {k : Nat}
    (hk : k < w) : m.read (a + k) = some (BitVec.ofNat 8 (v / 2 ^ (8 * (w - 1 - k)) % 256)) := by
  rw [h k (by simpa using hk), beBytes_getElem? v hk]

/-- What it means, element by element, that a buffer holds a header's bytes (R85 to R88). -/
theorem holdsBytes_headerBytes {m : Memory} {h : Hdr} (legal : h.Legal) :
    m.HoldsBytes 0 (headerBytes h legal) ↔
      m.read 0 = some (bfPack0 h.byte0) ∧
      m.HoldsBytes 1 (beBytes 2 (crcAdjustEncode h.dataLen h.crcFlag).toNat) ∧
      m.read 3 = some (bfPack3 h.byte3 legal.1 legal.2.1) ∧
      m.HoldsBytes 4 (beBytes h.entityLen.toNat h.srcEid.toNat) ∧
      m.HoldsBytes (4 + h.entityLen.toNat) (beBytes h.tsnLen.toNat h.tsn.toNat) ∧
      m.HoldsBytes (4 + h.entityLen.toNat + h.tsnLen.toNat) (beBytes h.entityLen.toNat h.dstEid.toNat) := by
  simp only [headerBytes, Memory.holdsBytes_cons, Memory.holdsBytes_append, beBytes_length, Nat.zero_add,
    Nat.reduceAdd]

/-- The bytes of a legal header say that header again. -/
theorem headerOf_wireBytes {h : Hdr} (legal : h.Legal) :
    headerOf (bfPack0 h.byte0) (beBytes 2 (crcAdjustEncode h.dataLen h.crcFlag).toNat)
      (bfPack3 h.byte3 legal.1 legal.2.1) (beBytes h.entityLen.toNat h.srcEid.toNat)
      (beBytes h.tsnLen.toNat h.tsn.toNat) (beBytes h.entityLen.toNat h.dstEid.toNat) = h := by
  obtain ⟨-, -, hsrc, htsn, hdst⟩ := legal
  have hraw : (crcAdjustEncode h.dataLen h.crcFlag).toNat < 2 ^ (8 * 2) := BitVec.isLt _
  simp only [headerOf, bfUnpack0_bfPack0, bfUnpack3_bfPack3, beValue_beBytes, Nat.mod_eq_of_lt hraw,
    Nat.mod_eq_of_lt hsrc, Nat.mod_eq_of_lt htsn, Nat.mod_eq_of_lt hdst, BitVec.ofNat_toNat, BitVec.setWidth_eq,
    crcAdjustDecode_crcAdjustEncode]

/-- The raw length as a number, for either value of CRC_FLAG (R141). -/
theorem crcAdjustEncode_toNat (dlen : BitVec 16) (crc : Bit) :
    (crcAdjustEncode dlen crc).toNat = if crc = 1 then (dlen.toNat + 4) % 2 ^ 16 else dlen.toNat := by
  rcases BitVec.eq_zero_or_eq_one crc with rfl | rfl
  · rfl
  · exact BitVec.toNat_add dlen 4

/-- A register wide enough for a field's bytes holds their value unchanged. -/
theorem beBytes_ofNat_beValue {bs : List Byte} {w n : Nat} (hlen : bs.length = w) (hn : 8 * w ≤ n) :
    beBytes w (BitVec.ofNat n (beValue bs)).toNat = bs := by
  subst hlen
  have hlt : beValue bs < 2 ^ n := (beValue_lt bs).trans_le (Nat.pow_le_pow_right (by decide) hn)
  rw [BitVec.toNat_ofNat, Nat.mod_eq_of_lt hlt, beBytes_beValue]

theorem toNat_ofNat_beValue_lt {bs : List Byte} {w : Nat} (hlen : bs.length = w) (n : Nat) :
    (BitVec.ofNat n (beValue bs)).toNat < 2 ^ (8 * w) := by
  subst hlen
  rw [BitVec.toNat_ofNat]
  exact (Nat.mod_le _ _).trans_lt (beValue_lt bs)

section
variable {b0 b3 : Byte} {raw src tsn dst : List Byte}

/-- A header formed from fields as wide as byte 3 announces meets ENCODE's precondition (R172). -/
theorem headerOf_legal (hsrc : src.length = (bfUnpack3 b3).entityLen.toNat)
    (htsn : tsn.length = (bfUnpack3 b3).tsnLen.toNat) (hdst : dst.length = (bfUnpack3 b3).entityLen.toNat) :
    (headerOf b0 raw b3 src tsn dst).Legal :=
  ⟨(bfUnpack3_legal b3).1, (bfUnpack3_legal b3).2, toNat_ofNat_beValue_lt hsrc 64, toNat_ofNat_beValue_lt htsn 64,
    toNat_ofNat_beValue_lt hdst 64⟩

/-- The bytes of a header formed from bytes are those bytes. -/
theorem headerBytes_headerOf (hraw : raw.length = 2) (hsrc : src.length = (bfUnpack3 b3).entityLen.toNat)
    (htsn : tsn.length = (bfUnpack3 b3).tsnLen.toNat) (hdst : dst.length = (bfUnpack3 b3).entityLen.toNat)
    (legal : (headerOf b0 raw b3 src tsn dst).Legal) :
    headerBytes (headerOf b0 raw b3 src tsn dst) legal = b0 :: (raw ++ b3 :: (src ++ (tsn ++ dst))) := by
  have hentity := (widthLegal_iff.mp (bfUnpack3_legal b3).1).2
  have htsnLen := (widthLegal_iff.mp (bfUnpack3_legal b3).2).2
  have hbyte0 : bfPack0 (headerOf b0 raw b3 src tsn dst).byte0 = b0 := bfPack0_bfUnpack0 b0
  have hbyte3 : bfPack3 (headerOf b0 raw b3 src tsn dst).byte3 legal.1 legal.2.1 = b3 := bfPack3_bfUnpack3 b3 _ _
  rw [headerBytes, hbyte0, hbyte3]
  simp only [headerOf, crcAdjustEncode_crcAdjustDecode]
  rw [beBytes_ofNat_beValue hraw (by omega), beBytes_ofNat_beValue hsrc (by omega),
    beBytes_ofNat_beValue htsn (by omega), beBytes_ofNat_beValue hdst (by omega)]

end

/-- DECODE's reading and ENCODE's writing are two sides of one relation: a header parses exactly when it is legal, its bytes
stand in the window and they are all offered. -/
theorem parsesTo_iff_holdsBytes {n : BitVec 32} {m : Memory} {h : Hdr} :
    ParsesTo n m h ↔ h.rawSize ≤ n.toNat ∧ ∃ legal : h.Legal, m.HoldsBytes 0 (headerBytes h legal) := by
  constructor
  · rintro ⟨b0, raw, b3, src, tsn, dst, h0, hr, h3, hs, ht, hd, hn, rfl⟩
    rw [Memory.readBytes_eq_ok_iff_holdsBytes] at hr hs ht hd
    obtain ⟨hrlen, hr⟩ := hr
    obtain ⟨hslen, hs⟩ := hs
    obtain ⟨htlen, ht⟩ := ht
    obtain ⟨hdlen, hd⟩ := hd
    refine ⟨?_, headerOf_legal hslen htlen hdlen, ?_⟩
    · simp only [Hdr.rawSize, headerOf, Config.fixedPrefixSize]
      omega
    · rw [headerBytes_headerOf hrlen hslen htlen hdlen]
      simp only [Memory.holdsBytes_cons, Memory.holdsBytes_append, hrlen, hslen, htlen]
      exact ⟨h0, hr, h3, hs, ht, hd⟩
  · rintro ⟨hn, legal, hbytes⟩
    obtain ⟨h0, hr, h3, hs, ht, hd⟩ := (holdsBytes_headerBytes legal).mp hbytes
    have hread {a w v : Nat} (hb : m.HoldsBytes a (beBytes w v)) : m.readBytes a w = .ok (beBytes w v) :=
      Memory.readBytes_eq_ok_iff_holdsBytes.mpr ⟨beBytes_length w v, hb⟩
    simp only [Hdr.rawSize, Config.fixedPrefixSize] at hn
    refine ⟨_, _, _, _, _, _, h0, hread hr, h3, ?_, ?_, ?_, ?_, (headerOf_wireBytes legal).symm⟩ <;>
      rw [bfUnpack3_bfPack3]
    · exact hread hs
    · exact hread ht
    · exact hread hd
    · dsimp only
      omega

/-- A header that parses is legal (R172). -/
theorem ParsesTo.legal {n : BitVec 32} {m : Memory} {h : Hdr} (hp : ParsesTo n m h) : h.Legal :=
  (parsesTo_iff_holdsBytes.mp hp).2.1

end Sys2Proof.Machine

end

section
/-! NOP, DECODE, ENCODE and the RAW_SIZE view (42_framer_commands.md). -/

namespace Sys2Proof.Machine

/-- OUT_LEN has room for the length of every legal header (R32). -/
theorem toNat_ofNat_rawSize {h : Hdr} (legal : h.Legal) : (BitVec.ofNat 5 h.rawSize).toNat = h.rawSize := by
  have hmax := (rawSize_bounds legal).2
  rw [BitVec.toNat_ofNat]
  omega

/-- RAW_SIZE has room for every value of the two width registers (R190). -/
theorem rawSize_le (h : Hdr) : h.rawSize ≤ 49 := by
  have hentity := h.entityLen.isLt
  have htsn := h.tsnLen.isLt
  simp only [Hdr.rawSize, Config.fixedPrefixSize]
  omega

/-- The data path carries every value of RAW_SIZE unchanged (R22). -/
theorem toNat_rawSizeData (h : Hdr) : (BitVec.ofNat 64 h.rawSize : Data).toNat = h.rawSize := by
  have hmax := rawSize_le h
  rw [BitVec.toNat_ofNat]
  omega

/-- RAW_SIZE of a header that parsed, in the length codes of the byte 3 it came from (R89). -/
theorem ParsesTo.rawSize_eq {n : BitVec 32} {m : Memory} {h : Hdr} (hp : ParsesTo n m h) :
    ∃ b3, m.read 3 = some b3 ∧ h.rawSize = 7 + 2 * (b3.toNat / 16 % 8) + b3.toNat % 8 := by
  obtain ⟨b0, raw, b3, src, tsn, dst, -, -, h3, -, -, -, -, rfl⟩ := hp
  refine ⟨b3, h3, ?_⟩
  simp only [Hdr.rawSize, headerOf, Config.fixedPrefixSize, bfUnpack3_entityLen_toNat, bfUnpack3_tsnLen_toNat]
  omega

/-- With both width fields written, the host reads RAW_SIZE without a fault (R190). -/
theorem rd_rawSize_of_marks {s : State} (he : s.marks.get .entityLen = true) (ht : s.marks.get .tsnLen = true) :
    performAccess (.rd .rawSize) s = .next (s.pushRead (BitVec.ofNat 64 s.hdr.rawSize)) := by
  have hview : readRawSize s = .ok (BitVec.ofNat 6 s.hdr.rawSize) := by
    simp only [HdrMarks.get] at he ht
    simp [readRawSize, he, ht]
  have hwide : (BitVec.ofNat 6 s.hdr.rawSize).setWidth 64 = BitVec.ofNat 64 s.hdr.rawSize := by
    have hmax := rawSize_le s.hdr
    apply BitVec.eq_of_toNat_eq
    rw [toNat_rawSizeData, BitVec.toNat_setWidth, BitVec.toNat_ofNat]
    omega
  simp only [performAccess, readReg, hview, answerRead, hwide]

/-- Otherwise the read is a model fault that names an unwritten one (R190, R208). -/
theorem rd_rawSize_of_unwritten {s : State} (h : s.marks.get .entityLen = false ∨ s.marks.get .tsnLen = false) :
    ∃ f, (f = .entityLen ∨ f = .tsnLen) ∧ s.marks.get f = false ∧
      performAccess (.rd .rawSize) s = .fault (.unwrittenRead (.hdr f)) := by
  simp only [performAccess, readReg, readRawSize]
  cases he : s.marks.entityLen with
  | false => exact ⟨.entityLen, .inl rfl, he, rfl⟩
  | true =>
    have ht : s.marks.tsnLen = false := h.resolve_left (by simp [HdrMarks.get, he])
    exact ⟨.tsnLen, .inr rfl, ht, by simp [ht, answerRead]⟩

/-- After a legal header is encoded, RAW_SIZE reads what OUT_LEN holds. -/
theorem rd_rawSize_eq_outLen {t : State} (hm : ∀ f, t.marks.get f = true) (legal : t.hdr.Legal)
    (hout : t.outLen = BitVec.ofNat 5 t.hdr.rawSize) :
    performAccess (.rd .rawSize) t = .next (t.pushRead (t.outLen.setWidth 64)) := by
  have hwide : t.outLen.setWidth 64 = BitVec.ofNat 64 t.hdr.rawSize := by
    apply BitVec.eq_of_toNat_eq
    rw [hout, BitVec.toNat_setWidth_of_le (by decide), toNat_ofNat_rawSize legal, toNat_rawSizeData]
  rw [rd_rawSize_of_marks (hm _) (hm _), hwide]

/-- On a running block with every field written, ENCODE of a legal header emits it and reports OK (R181). -/
theorem execEncode_of_legal {s : State} (hf : s.status.fault = 0) (hm : ∀ f, s.marks.get f = true)
    (legal : s.hdr.Legal) :
    execEncode s = .next (((s.setObuf (emitHeader s.hdr legal s.obuf)).setOutLen
      (BitVec.ofNat 5 s.hdr.rawSize)).reportOk lastEncode) := by
  rw [execEncode, runUnlessFaulted_of_running hf, encodeCommandBody, readHeader_eq_ok.mpr ⟨hm, rfl⟩]
  exact dif_pos legal

theorem holdsBytes_emitHeader {h : Hdr} (legal : h.Legal) (m : Memory) :
    (emitHeader h legal m).HoldsBytes 0 (headerBytes h legal) := by
  rw [emitHeader_eq]
  exact m.holdsBytes_writeBytes 0 _

/-- ENCODE leaves every byte past the header (R181). -/
theorem read_emitHeader_past {h : Hdr} (legal : h.Legal) (m : Memory) {a : Nat} (ha : h.rawSize ≤ a) :
    (emitHeader h legal m).read a = m.read a := by
  rw [emitHeader_eq, Memory.read_writeBytes, headerBytes_length, if_neg (by omega)]

/-- What a DECODE that reports OK leaves for an ENCODE after it. -/
theorem execDecode_ok {s t : State} (hf : s.status.fault = 0) (hdec : execDecode s = .next t)
    (hok : t.status.result = resultOk) :
    ParsesTo s.inLen s.ibuf t.hdr ∧ (∀ f, t.marks.get f = true) ∧ t.status.fault = 0 ∧ t.obuf = s.obuf := by
  obtain ⟨hp, ht⟩ := parsesTo_of_execDecode_ok hf hdec hok
  rw [ht]
  exact ⟨hp, HdrMarks.get_fill true, by simpa using hf, rfl⟩

/-- A window whose offered bytes are all written gives no model fault: what does not parse is a decode error. -/
theorem parseHeader_raises_of_written {n : BitVec 32} {m : Memory} (hm : ∀ a < n.toNat, m.read a ≠ none)
    (hno : ∀ k, ¬ ParsesTo n m k) : ∃ e, parseHeader n m = .error (.raised e) := by
  cases hp : parseHeader n m with
  | ok k => exact absurd (parseHeader_eq_ok.mp hp) (hno k)
  | error r =>
    cases r with
    | raised e => exact ⟨e, rfl⟩
    | modelFault f =>
      obtain ⟨o, -, ho, -, hnone⟩ := parseHeader_modelFault hp
      exact absurd hnone (hm o ho)

/-- A window holds at most one header: a buffer too short for it offers none. -/
theorem not_parsesTo_of_lt_rawSize {n n' : BitVec 32} {m : Memory} {h : Hdr} (hp : ParsesTo n m h)
    (hn : n'.toNat < h.rawSize) (k : Hdr) : ¬ ParsesTo n' m k := by
  intro hk
  obtain ⟨hle, -⟩ := parsesTo_iff_holdsBytes.mp hp
  obtain ⟨hle', -⟩ := parsesTo_iff_holdsBytes.mp hk
  have hk' : ParsesTo n m k := hk.of_same_bytes (by omega) fun _ _ => rfl
  have heq : k = h := Except.ok.inj ((parseHeader_eq_ok.mpr hk').symm.trans (parseHeader_eq_ok.mpr hp))
  subst heq
  omega

/-- On a running block, DECODE of a window that raises an error reports it. -/
theorem execDecode_of_raises {s : State} {e : DecodeError} (hf : s.status.fault = 0)
    (hp : parseHeader s.inLen s.ibuf = .error (.raised e)) : execDecode s = .next (s.raiseDecodeError e) := by
  rw [execDecode, runUnlessFaulted_of_running hf, decodeCommandBody, hp]

/-- A byte is known by its number. -/
theorem byte_eq_ofNat {b : Byte} {n : Nat} (h : b.toNat = n) : b = BitVec.ofNat 8 n := by
  rw [← h, BitVec.ofNat_toNat, BitVec.setWidth_eq]

end Sys2Proof.Machine

namespace Sys2Proof.Claims

open Sys2Proof.Machine Sys2Proof.Safety

theorem reported_report (st : Status) (r e c : BitVec 2) : Reported st (st.report r e c) r e c := by
  simp [Reported]

/-- A report on a running block with a legal STATUS leaves a word that the report alone determines. -/
theorem report_eq_of_statusLegal {st : Status} (hst : StatusLegal st) (hf : st.fault = 0) (r e c : BitVec 2) :
    st.report r e c = Status.report 0 r e c := by
  have hcause := hst.cause_iff.mpr hf
  apply Status.ext_fields <;> simp [hst.reserved6, hst.reservedHigh, hf, hcause] <;> rfl

end Sys2Proof.Claims

open Sys2Proof Sys2Proof.Machine Sys2Proof.Safety Sys2Proof.Claims

/-- Settles O43: ENCODE leaves the header's bytes in OBUF, a window with the same bytes holds them too, and so the header
parses from it. -/
theorem headerRoundTrip : Obligations.HeaderRoundTrip := by
  intro s t hf hm legal henc m hwindow
  obtain rfl := Host.Outcome.next.inj ((execEncode_of_legal hf hm legal).symm.trans henc)
  simp only [State.reportOk_outLen, State.setOutLen_outLen, toNat_ofNat_rawSize legal] at hwindow
  have hbytes : m.HoldsBytes 0 (headerBytes s.hdr legal) :=
    (holdsBytes_emitHeader legal s.obuf).congr fun a ha => hwindow a (by rwa [headerBytes_length] at ha)
  have hsize : s.hdr.rawSize ≤ ((BitVec.ofNat 5 s.hdr.rawSize).setWidth 32).toNat := by
    rw [BitVec.toNat_setWidth_of_le (by decide), toNat_ofNat_rawSize legal]
  exact ⟨_, execDecode_of_parsesTo (by simpa using hf) (parsesTo_iff_holdsBytes.mpr ⟨hsize, legal, hbytes⟩),
    by simp [resultOk], rfl⟩

/-- Settles O44: the window holds the bytes of the header it parsed to, and ENCODE writes those bytes. -/
theorem byteRoundTrip : Obligations.ByteRoundTrip := by
  intro s t hf hdec hok
  obtain ⟨hp, hm, hft, hobuf⟩ := execDecode_ok hf hdec hok
  obtain ⟨-, legal, hin⟩ := parsesTo_iff_holdsBytes.mp hp
  have hlen := toNat_ofNat_rawSize legal
  have hout := holdsBytes_emitHeader legal t.obuf
  refine ⟨_, execEncode_of_legal hft hm legal, by simp [resultOk], by simpa using hft, hlen,
    rd_rawSize_eq_outLen hm legal rfl, fun a ha => ?_, fun a ha => ?_⟩
  · have ha : a < (headerBytes t.hdr legal).length := by rw [headerBytes_length]; exact ha.trans_eq hlen
    refine ⟨?_, hout.read_ne_none ha⟩
    have hsame := (hout a ha).trans (hin a ha).symm
    rwa [Nat.zero_add] at hsame
  · rw [← hobuf]
    exact read_emitHeader_past legal t.obuf (hlen.symm.trans_le ha)

/-- Settles O33: of DECODE's two ways to a next state on a running block, the error writes STATUS alone, and the error is
fixed by IN_LEN. -/
theorem decodeAllOrNothing : Obligations.DecodeAllOrNothing := by
  intro s t hf h
  rcases execDecode_next h with ⟨hf', -⟩ | ⟨-, e, -, hraise, rfl⟩ | ⟨-, k, -, rfl⟩
  · simp [hf] at hf'
  · refine ⟨rfl, by simpa using hf, fun _ => ⟨rfl, rfl, ?_⟩⟩
    rcases parseHeader_raises hraise with ⟨rfl, hn⟩ | ⟨rfl, hn⟩
    · exact .inl ⟨hn, reported_report _ _ _ _⟩
    · exact .inr ⟨hn, reported_report _ _ _ _⟩
  · exact ⟨rfl, by simpa using hf, fun herr => by simp [resultOk] at herr⟩

/-- Settles O34: the header that DECODE committed parsed, so it is legal, and all its fields are written. -/
theorem decodedHeaderIsLegal : Obligations.DecodedHeaderIsLegal := by
  intro s t hf hdec hok
  obtain ⟨hp, hm, hft, -⟩ := execDecode_ok hf hdec hok
  obtain ⟨⟨hemin, hemax⟩, ⟨htmin, htmax⟩, hsrc, htsn, hdst⟩ := hp.legal
  exact ⟨Nat.le_of_lt_succ t.hdr.version.isLt, hemin, hemax, htmin, htmax, hsrc, hdst, htsn, _,
    execEncode_of_legal hft hm hp.legal, by simpa using hft⟩

/-- Settles O39: byte 3 gives the size of the header that parsed; a shorter offer of the same window holds no header, and its
bytes are all written, so it is a decode error. -/
theorem rawSizeIsBytesConsumed : Obligations.RawSizeIsBytesConsumed := by
  intro s t hf hdec hok
  obtain ⟨hp, hm, -, -⟩ := execDecode_ok hf hdec hok
  obtain ⟨hn, legal, hbytes⟩ := parsesTo_iff_holdsBytes.mp hp
  obtain ⟨hmin, hmax⟩ := rawSize_bounds legal
  obtain ⟨b3, h3, hsize⟩ := hp.rawSize_eq
  have hwritten : ∀ a < t.hdr.rawSize, s.ibuf.read a ≠ none := fun a ha =>
    hbytes.read_ne_none (by rwa [headerBytes_length])
  refine ⟨b3, _, h3, rd_rawSize_of_marks (hm _) (hm _), ?_⟩
  rw [toNat_rawSizeData]
  refine ⟨hsize, hmin, hmax, hn, hwritten, fun n hlt => ?_⟩
  obtain ⟨e, he⟩ := parseHeader_raises_of_written (fun a ha => hwritten a (ha.trans hlt))
    (not_parsesTo_of_lt_rawSize hp hlt)
  exact ⟨_, execDecode_of_raises (s := s.setInLen n) hf he, by simp [resultDecodeError]⟩

/-- Settles O40: OBUF holds the header's bytes after ENCODE, element by element, and the bytes past them are as before. -/
theorem encodeWritesHeader : Obligations.EncodeWritesHeader := by
  rintro s L T real hf hm legal rfl rfl hreal
  have hreal : (crcAdjustEncode s.hdr.dataLen s.hdr.crcFlag).toNat = real := by rw [hreal, crcAdjustEncode_toNat]
  have hlt : real < 2 ^ 16 := hreal ▸ BitVec.isLt _
  have hlen := toNat_ofNat_rawSize legal
  obtain ⟨hmin, hmax⟩ := rawSize_bounds legal
  obtain ⟨h0, hraw, h3, hsrc, htsn, hdst⟩ := (holdsBytes_headerBytes legal).mp (holdsBytes_emitHeader legal s.obuf)
  rw [hreal] at hraw
  refine ⟨_, execEncode_of_legal hf hm legal, ?_, ?_, ?_, ?_, fun k hk => hsrc.read_beBytes hk,
    fun k hk => htsn.read_beBytes hk, fun k hk => hdst.read_beBytes hk,
    fun a ha => read_emitHeader_past legal s.obuf ha, hlen, hmin.trans_eq hlen.symm, hlen.trans_le hmax,
    rd_rawSize_eq_outLen hm legal rfl, reported_report _ _ _ _, fun hst => ?_, rfl⟩
  · exact h0.trans (congrArg some (byte_eq_ofNat (bfPack0_toNat _)))
  · refine (hraw.read_beBytes (k := 0) (by decide)).trans ?_
    rw [show real / 2 ^ (8 * (2 - 1 - 0)) % 256 = real / 256 by omega]
  · refine (hraw.read_beBytes (k := 1) (by decide)).trans ?_
    rw [show real / 2 ^ (8 * (2 - 1 - 1)) % 256 = real % 256 by omega]
  · exact h3.trans (congrArg some (byte_eq_ofNat (bfPack3_toNat _ _ _)))
  · exact (report_eq_of_statusLegal hst hf _ _ _).trans (by decide)

/-- Settles O41: of ENCODE's ways to a next state, only the one that reports OK writes OBUF or OUT_LEN, and it leaves FAULT. -/
theorem encodeFrame : Obligations.EncodeFrame := by
  intro s t h
  rcases execEncode_next h with ⟨-, rfl⟩ | ⟨-, -, -, rfl⟩ | ⟨hf, -, legal, rfl⟩
  · exact ⟨rfl, fun _ => ⟨rfl, rfl⟩⟩
  · exact ⟨rfl, fun _ => ⟨rfl, rfl⟩⟩
  · exact ⟨rfl, fun hfault => by simp [hf] at hfault⟩

/-- Settles O13: the 6-bit view has room for the sum, and each mark is looked at before its field. -/
theorem rawSizeView : Obligations.RawSizeView := by
  refine fun s => ⟨fun he ht => ⟨_, rd_rawSize_of_marks he ht, ?_⟩, rd_rawSize_of_unwritten⟩
  rw [toNat_rawSizeData]
  refine ⟨rfl, rawSize_le s.hdr, fun _ _ _ _ => ?_⟩
  simp only [Hdr.rawSize, Config.fixedPrefixSize]
  omega

/-- Settles O27: NOP answers its own state, whether the FAULT gate lets it run or ignores it. -/
theorem nopDoesNothing : Obligations.NopDoesNothing := by
  intro s
  rcases status_fault_cases s.status with hf | hf
  · exact runUnlessFaulted_of_running hf
  · exact runUnlessFaulted_of_faulted hf

end

section
/-! Decode errors and sticky faults (60_exceptions.md): what stops a command, in which order, and what it leaves. -/

namespace Sys2Proof.Claims

open Sys2Proof.Machine

/-- Part of a held run is held. -/
theorem Holds.sub {m : Memory} {b : Nat → Byte} {n a w : Nat} (h : Holds m 0 n b) (hle : a + w ≤ n) : Holds m a w b :=
  fun k hk => by simpa using h (a + k) (by omega)

/-- A held byte, by its offset. -/
theorem Holds.read {m : Memory} {b : Nat → Byte} {n a : Nat} (h : Holds m 0 n b) (ha : a < n) :
    m.read a = some (b a) := by
  simpa using h a ha

/-- The header ends where its destination field does (R84, R89). -/
theorem headerSize_eq (b : Nat → Byte) : headerSize b = 4 + entityWidth b + tsnWidth b + entityWidth b := by
  rw [headerSize]
  omega

/-- The width that DECODE unpacks for the entity IDs is the one byte 3 announces (R87). -/
theorem bfUnpack3_entityLen_eq_entityWidth (b : Nat → Byte) : (bfUnpack3 (b 3)).entityLen.toNat = entityWidth b :=
  bfUnpack3_entityLen_toNat (b 3)

/-- The width that DECODE unpacks for the transaction sequence number is the one byte 3 announces (R87). -/
theorem bfUnpack3_tsnLen_eq_tsnWidth (b : Nat → Byte) : (bfUnpack3 (b 3)).tsnLen.toNat = tsnWidth b :=
  bfUnpack3_tsnLen_toNat (b 3)

section
variable {n : BitVec 32} {m : Memory} {b : Nat → Byte} {k : Nat} {r : DecodeStop}

/-- Below the least header size DECODE stops before it reads any byte (R201). -/
theorem parseHeader_of_tooSmall (hn : n.toNat < 7) : parseHeader n m = .error (.raised .bufferTooSmall) :=
  if_pos hn

/-- A field that ends past IN_LEN is truncated, whatever its bytes (R203). -/
theorem beExtractChecked_of_past {a w : Nat} (hpast : n.toNat < a + w) :
    beExtractChecked n m a w = .error (.raised .truncatedVariableField) :=
  beExtractChecked_eq_error.mpr (.inl ⟨hpast, rfl⟩)

/-- An offered field with the window's first unwritten byte in it is the model fault at that byte (R208). -/
theorem beExtractChecked_of_firstUnwritten {a w : Nat} (h : Holds m 0 k b) (hnone : m.read k = none) (hak : a ≤ k)
    (hk : k < a + w) (hn : a + w ≤ n.toNat) :
    beExtractChecked n m a w = .error (.modelFault (.unwrittenRead (.ibuf k))) := by
  obtain ⟨j, rfl⟩ := Nat.exists_eq_add_of_le hak
  exact beExtractChecked_of_unwritten hn (by omega) hnone fun i hi => by simp [h.read (show a + i < a + j by omega)]

/-- DECODE reads the four fixed bytes in rising order: an unwritten one ends it (R211). -/
theorem parseHeader_of_fixed_unwritten (hn : 7 ≤ n.toNat) (h : Holds m 0 k b) (hnone : m.read k = none) (hk : k < 4) :
    parseHeader n m = .error (.modelFault (.unwrittenRead (.ibuf k))) := by
  rw [parseHeader, if_neg (by simpa [Config.minHeaderSize, Config.fixedPrefixSize] using hn)]
  simp only [except_bind_eq_error]
  rcases Nat.eq_zero_or_pos k with rfl | hpos
  · exact .inl (readInput_eq_error.mpr ⟨hnone, rfl⟩)
  refine .inr ⟨b 0, readInput_eq_ok.mpr (h.read hpos), ?_⟩
  rw [if_neg (version_in_range (b 0))]
  simp only [except_bind_eq_error]
  rcases Nat.lt_or_ge k 3 with hlt | hge
  · refine .inl (beExtract_eq_error.mpr ⟨k, Memory.readBytes_eq_error.mpr ⟨hpos, hlt, hnone, fun o _ ho => ?_⟩, rfl⟩)
    simp [h.read ho]
  · obtain rfl : k = 3 := by omega
    exact .inr ⟨_, beExtract_of_holds (h.sub (by decide)), .inl (readInput_eq_error.mpr ⟨hnone, rfl⟩)⟩

/-- Once the fixed bytes are there, DECODE stops where the first of its three variable fields does (R170, R211). -/
theorem parseHeader_eq_error_of_fixed (hn : 7 ≤ n.toNat) (h : Holds m 0 4 b) :
    parseHeader n m = .error r ↔
      beExtractChecked n m 4 (entityWidth b) = .error r ∨
      ∃ src, beExtractChecked n m 4 (entityWidth b) = .ok src ∧
        (beExtractChecked n m src.2 (tsnWidth b) = .error r ∨
          ∃ tsn, beExtractChecked n m src.2 (tsnWidth b) = .ok tsn ∧
            beExtractChecked n m tsn.2 (entityWidth b) = .error r) := by
  have h0 : readInput m 0 = .ok (b 0) := readInput_eq_ok.mpr (h.read (by decide))
  have hraw : beExtract m 1 2 = .ok (bigEndian b 1 2) := beExtract_of_holds (h.sub (by decide))
  have h3 : readInput m 3 = .ok (b 3) := readInput_eq_ok.mpr (h.read (by decide))
  rw [parseHeader, if_neg (by simpa [Config.minHeaderSize, Config.fixedPrefixSize] using hn)]
  simp only [except_bind_eq_error, h0, hraw, h3, if_neg (version_in_range (b 0)), reduceCtorEq, false_or,
    Except.ok.injEq, exists_eq_left', bfUnpack3_entityLen_eq_entityWidth, bfUnpack3_tsnLen_eq_tsnWidth,
    Config.fixedPrefixSize, and_false, exists_false, or_false]

/-- Where the source field stops, DECODE does. -/
theorem parseHeader_of_source_stops (hn : 7 ≤ n.toNat) (h : Holds m 0 4 b)
    (hstop : beExtractChecked n m 4 (entityWidth b) = .error r) : parseHeader n m = .error r :=
  (parseHeader_eq_error_of_fixed hn h).mpr (.inl hstop)

/-- Past a source field that is there, DECODE stops where the TSN field does. -/
theorem parseHeader_of_tsn_stops (hn : 7 ≤ n.toNat) (h : Holds m 0 (4 + entityWidth b) b)
    (hsrc : 4 + entityWidth b ≤ n.toNat)
    (hstop : beExtractChecked n m (4 + entityWidth b) (tsnWidth b) = .error r) : parseHeader n m = .error r :=
  (parseHeader_eq_error_of_fixed hn (h.sub (by omega))).mpr
    (.inr ⟨_, beExtractChecked_of_holds hsrc (h.sub (by omega)), .inl hstop⟩)

/-- Past a source and a TSN field that are there, DECODE stops where the destination field does. -/
theorem parseHeader_of_destination_stops (hn : 7 ≤ n.toNat) (h : Holds m 0 (4 + entityWidth b + tsnWidth b) b)
    (htsn : 4 + entityWidth b + tsnWidth b ≤ n.toNat)
    (hstop : beExtractChecked n m (4 + entityWidth b + tsnWidth b) (entityWidth b) = .error r) :
    parseHeader n m = .error r :=
  (parseHeader_eq_error_of_fixed hn (h.sub (by omega))).mpr
    (.inr ⟨_, beExtractChecked_of_holds (by omega) (h.sub (by omega)),
      .inr ⟨_, beExtractChecked_of_holds htsn (h.sub (by omega)), hstop⟩⟩)

/-- A source field that ends past IN_LEN is reported once the fixed bytes are read (R203). -/
theorem parseHeader_of_source_past (hn : 7 ≤ n.toNat) (h : Holds m 0 4 b) (hpast : n.toNat < 4 + entityWidth b) :
    parseHeader n m = .error (.raised .truncatedVariableField) :=
  parseHeader_of_source_stops hn h (beExtractChecked_of_past hpast)

/-- The same report where the TSN field ends past IN_LEN: if the source field does so already, that one is met first. -/
theorem parseHeader_of_tsn_past (hn : 7 ≤ n.toNat) (h : Holds m 0 (4 + entityWidth b) b)
    (hpast : n.toNat < 4 + entityWidth b + tsnWidth b) :
    parseHeader n m = .error (.raised .truncatedVariableField) := by
  rcases Nat.lt_or_ge n.toNat (4 + entityWidth b) with hsrc | hsrc
  · exact parseHeader_of_source_past hn (h.sub (by omega)) hsrc
  · exact parseHeader_of_tsn_stops hn h hsrc (beExtractChecked_of_past hpast)

/-- The same report where the destination field ends past IN_LEN. -/
theorem parseHeader_of_destination_past (hn : 7 ≤ n.toNat) (h : Holds m 0 (4 + entityWidth b + tsnWidth b) b)
    (hpast : n.toNat < 4 + entityWidth b + tsnWidth b + entityWidth b) :
    parseHeader n m = .error (.raised .truncatedVariableField) := by
  rcases Nat.lt_or_ge n.toNat (4 + entityWidth b + tsnWidth b) with htsn | htsn
  · exact parseHeader_of_tsn_past hn (h.sub (by omega)) htsn
  · exact parseHeader_of_destination_stops hn h htsn (beExtractChecked_of_past hpast)

end

/-- What DECODE does with a decode error: STATUS alone is written, RESULT, ERRCODE and LAST_CMD in it (R200). -/
theorem exec_decode_reports_error {s : State} {e : DecodeError} (hf : s.status.fault = 0)
    (hp : parseHeader s.inLen s.ibuf = .error (.raised e)) :
    ∃ t, exec .decode s = .next t ∧ t = s.setStatus t.status ∧ Reported s.status t.status 0b10 e.code 0b01 ∧
      (Safety.StatusLegal s.status → t.status = Status.report 0 resultDecodeError e.code lastDecode) :=
  ⟨_, execDecode_of_raises hf hp, rfl, reported_report _ _ _ _, fun hst => report_eq_of_statusLegal hst hf _ _ _⟩

end Sys2Proof.Claims

namespace Sys2Proof.Machine

/-- Every command but NOP, DECODE and ENCODE is one of the reserved ones (R82). -/
theorem exec_of_reserved {i : Instr} (hn : i ≠ .nop) (hd : i ≠ .decode) (he : i ≠ .encode) (s : State) :
    exec i s = runUnlessFaulted illegalCommand s := by
  cases i with
  | nop => exact absurd rfl hn
  | decode => exact absurd rfl hd
  | encode => exact absurd rfl he
  | reserved03 | reserved04 | reserved08 | reserved10 | reserved20 | reserved40 | reserved80 => rfl

/-- On a running block, writing a code from 3 up to CMD raises ILLEGAL_CMD (R207). -/
theorem wr_cmd_of_reserved {s : State} {c : Byte} (hf : s.status.fault = 0) (hc : 3 ≤ c.toNat) :
    performAccess (.wr .cmd c) s = .next (s.raiseFault .illegalCmd) := by
  have hne {i : Instr} (hi : (encodeCommand i).toNat < 3) : decodeCommand c ≠ i := by
    rw [ne_eq, decodeCommand_eq_iff]
    rintro rfl
    omega
  exact (exec_of_reserved (hne (by decide)) (hne (by decide)) (hne (by decide)) s).trans
    (runUnlessFaulted_of_running hf)

/-- A faulted block ignores every command (R210). -/
theorem exec_of_faulted {s : State} (hf : s.status.fault = 1) (i : Instr) : exec i s = .next s := by
  cases i <;> exact runUnlessFaulted_of_faulted hf

/-- On a running block, a model fault in DECODE's reading is the fault of the whole command (R208). -/
theorem execDecode_of_modelFault {s : State} {f : Fault} (hf : s.status.fault = 0)
    (hp : parseHeader s.inLen s.ibuf = .error (.modelFault f)) : execDecode s = .fault f := by
  rw [execDecode, runUnlessFaulted_of_running hf, decodeCommandBody, hp]

/-- ENCODE with a field unwritten is the model fault that names such a field (R180, R208). -/
theorem execEncode_of_unwritten {s : State} {f : HdrField} (hf : s.status.fault = 0) (hm : s.marks.get f = false) :
    ∃ g, s.marks.get g = false ∧ execEncode s = .fault (.unwrittenRead (.hdr g)) := by
  cases hr : readHeader s with
  | ok h =>
    obtain ⟨hall, -⟩ := readHeader_eq_ok.mp hr
    simp [hall f] at hm
  | error r =>
    obtain ⟨g, hg, rfl⟩ := readHeader_eq_error hr
    exact ⟨g, hg, by rw [execEncode, runUnlessFaulted_of_running hf, encodeCommandBody, hr]⟩

/-- No access but a command and a reset writes STATUS (R22, R24). -/
theorem performAccess_keeps_status {a : Access} {s t : State} (h : performAccess a s = .next t)
    (hcmd : ∀ c, a ≠ .wr .cmd c) (hreset : a ≠ .reset) : t.status = s.status := by
  rcases performAccess_next h with ⟨v, rfl⟩ | ⟨c, hc, -⟩ | rfl | ⟨n, -, rfl⟩ | ⟨f, v, -, rfl⟩ |
    ⟨o, v, -, -, rfl⟩ | ⟨hr, -⟩
  case inr.inl => exact absurd hc (hcmd c)
  case inr.inr.inr.inr.inr.inr => exact absurd hr hreset
  all_goals rfl

section
variable (s : State) (st : Status)

/-- Handing a value to the host has nothing to do with STATUS. -/
theorem answerRead_setStatus (x : Except Fault Data) :
    answerRead x (s.setStatus st) = mapNext (fun t => t.setStatus st) (answerRead x s) := by
  cases x <;> rfl

/-- Only STATUS itself reads differently under another STATUS. -/
theorem readReg_setStatus {r : Reg} (hr : r ≠ .status) : readReg r (s.setStatus st) = readReg r s := by
  cases r with
  | status => exact absurd rfl hr
  | cmd | inLen | outLen | rawSize | hdr | unmapped => rfl

theorem readByte_setStatus (b : Buf) (o : BitVec 5) : readByte b o (s.setStatus st) = readByte b o s := by
  cases b <;> rfl

theorem writeByte_setStatus (b : Buf) (o : BitVec 5) (v : Byte) :
    writeByte b o v (s.setStatus st) = (writeByte b o v s).setStatus st := by
  cases b with
  | obuf => rfl
  | ibuf =>
    simp only [writeByte]
    split <;> rfl

/-- A register write that is no command does the same under any STATUS. -/
theorem writeReg_setStatus {r : Reg} (hr : r ≠ .cmd) (v : BitVec r.width) :
    writeReg r v (s.setStatus st) = mapNext (fun t => t.setStatus st) (writeReg r v s) := by
  cases r with
  | cmd => exact absurd rfl hr
  | status | inLen | outLen | rawSize | hdr | unmapped => rfl

/-- An access that is no command, no STATUS read and no reset does the same under any STATUS (R210). -/
theorem performAccess_setStatus {a : Access} (hcmd : ∀ c, a ≠ .wr .cmd c) (hrd : a ≠ .rd .status)
    (hreset : a ≠ .reset) :
    performAccess a (s.setStatus st) = mapNext (fun t => t.setStatus st) (performAccess a s) := by
  cases a with
  | rd r =>
    have hr : r ≠ .status := fun h => hrd (congrArg Access.rd h)
    simp only [performAccess, readReg_setStatus s st hr, answerRead_setStatus]
  | wr r v =>
    have hr : r ≠ .cmd := by
      rintro rfl
      exact hcmd v rfl
    exact writeReg_setStatus s st hr v
  | rdb b o => simp only [performAccess, readByte_setStatus, answerRead_setStatus]
  | wrb b o v => simp only [performAccess, writeByte_setStatus, mapNext]
  | reset => exact absurd rfl hreset

end

end Sys2Proof.Machine

open Sys2Proof Sys2Proof.Machine Sys2Proof.Safety Sys2Proof.Claims

/-- Settles O31: the first field that ends past IN_LEN stops DECODE with this error, and every byte it reads before that
is there. -/
theorem decodeReportsTruncation : Obligations.DecodeReportsTruncation := by
  intro s b hf hn hcase
  have hp : parseHeader s.inLen s.ibuf = .error (.raised .truncatedVariableField) := by
    rcases hcase with ⟨hpast, h⟩ | ⟨hpast, h⟩ | ⟨hpast, h⟩
    · exact parseHeader_of_source_past hn h hpast
    · exact parseHeader_of_tsn_past hn h hpast
    · exact parseHeader_of_destination_past hn h (by rwa [headerSize_eq] at hpast)
  obtain ⟨t, ht, hframe, hrep, hlegal⟩ := exec_decode_reports_error hf hp
  exact ⟨t, ht, hframe, hrep, fun hst => (hlegal hst).trans (by decide)⟩

/-- Settles O36: the first event is the first stop of DECODE's reading in its order, and of ENCODE's two checks. -/
theorem firstEventIsTaken : Obligations.FirstEventIsTaken := by
  have hreport {s : State} {e : DecodeError} (hf : s.status.fault = 0)
      (hp : parseHeader s.inLen s.ibuf = .error (.raised e)) :
      ∃ t, exec .decode s = .next t ∧ Reported s.status t.status 0b10 e.code 0b01 := by
    obtain ⟨t, ht, -, hrep, -⟩ := exec_decode_reports_error hf hp
    exact ⟨t, ht, hrep⟩
  refine ⟨fun s c hf => exec_of_faulted hf (decodeCommand c),
    fun s c hf hc => ⟨_, wr_cmd_of_reserved hf hc, faultRaised_raiseFault s .illegalCmd⟩,
    fun s hf hn => hreport hf (parseHeader_of_tooSmall hn), fun s b k hf hn h hnone => ?_,
    fun s hf ⟨f, hm⟩ => execEncode_of_unwritten hf hm,
    fun s hf hm hlegal => ⟨_, execEncode_of_not_legal hf hm hlegal, faultRaised_raiseFault s .encPrecond⟩⟩
  rw [headerSize_eq]
  refine ⟨fun hk => execDecode_of_modelFault hf (parseHeader_of_fixed_unwritten hn h hnone hk),
    fun hk hpast => hreport hf (parseHeader_of_source_past hn (h.sub (by omega)) hpast),
    fun hk hlt hin => execDecode_of_modelFault hf (parseHeader_of_source_stops hn (h.sub (by omega))
      (beExtractChecked_of_firstUnwritten h hnone hk hlt hin)),
    fun hk hpast => hreport hf (parseHeader_of_tsn_past hn (h.sub (by omega)) hpast),
    fun hk hlt hin => execDecode_of_modelFault hf (parseHeader_of_tsn_stops hn (h.sub (by omega)) (by omega)
      (beExtractChecked_of_firstUnwritten h hnone hk hlt hin)),
    fun hk hpast => hreport hf (parseHeader_of_destination_past hn (h.sub (by omega)) hpast),
    fun hk hlt hin => execDecode_of_modelFault hf (parseHeader_of_destination_stops hn (h.sub (by omega)) (by omega)
      (beExtractChecked_of_firstUnwritten h hnone hk hlt hin))⟩

/-- Settles O42: each of the five conditions denies one part of the precondition that ENCODE checks. -/
theorem encodeChecksPrecondition : Obligations.EncodeChecksPrecondition := by
  intro s hf hm hbreak
  have hlegal : ¬ s.hdr.Legal := by
    rintro ⟨hentity, htsnLen, hsrc, htsn, hdst⟩
    rcases hbreak with h | h | h | h | h
    · exact h hentity
    · exact h htsnLen
    · exact h.not_gt hsrc
    · exact h.not_gt htsn
    · exact h.not_gt hdst
  refine ⟨_, execEncode_of_not_legal hf hm hlegal, faultRaised_raiseFault s .encPrecond, fun hst => ?_⟩
  rw [State.raiseFault_status, hst]
  decide

/-- Settles O46: the FAULT gate ignores every command; no other access but a reset writes STATUS, and only a read of it
looks at it. -/
theorem faultedBlockIgnoresCommands : Obligations.FaultedBlockIgnoresCommands := by
  intro s hf
  have hcmd (c : Byte) : performAccess (.wr .cmd c) s = .next s := exec_of_faulted hf (decodeCommand c)
  refine ⟨hcmd, exec_of_faulted hf, fun a st => performAccess_setStatus s st, fun a t h hreset => ?_, fun t h => ?_⟩
  · by_cases ha : ∃ c, a = .wr .cmd c
    · obtain ⟨c, rfl⟩ := ha
      rw [Host.Outcome.next.inj ((hcmd c).symm.trans h)]
    · exact performAccess_keeps_status h (not_exists.mp ha) hreset
  · rw [← Host.Outcome.next.inj h, State.resetBlock_status]
    decide

/-- Settles O28: each code from 3 up names a reserved command, which raises the fault; on STATUS 0 that gives 0x0180. -/
theorem reservedCodeRaisesIllegalCmd : Obligations.ReservedCodeRaisesIllegalCmd := by
  intro c hc
  refine ⟨fun s hf => ⟨_, wr_cmd_of_reserved hf hc, faultRaised_raiseFault s .illegalCmd⟩, ?_⟩
  have hstatus : State.reset.status.recordFault .illegalCmd = 0x0180 := by decide
  rw [wr_cmd_of_reserved (by decide) hc, State.raiseFault, hstatus]

/-- Settles O30: the length check comes first, so the window plays no part. -/
theorem decodeReportsTooSmall : Obligations.DecodeReportsTooSmall := by
  intro s hf hn
  obtain ⟨t, ht, hframe, hrep, hlegal⟩ := exec_decode_reports_error hf (parseHeader_of_tooSmall hn)
  exact ⟨t, ht, hframe, hrep, fun hst => (hlegal hst).trans (by decide)⟩

end

section
/-! Reset (70_reset_and_hazards.md): what it clears, and what the host meets right after it. -/

namespace Sys2Proof.Machine

/-- A host read of a header field whose mark is clear is the model fault that names the field (R49, R208). -/
theorem rd_hdr_of_unwritten {s : State} {f : HdrField} (hm : s.marks.get f = false) :
    performAccess (.rd (.hdr f)) s = .fault (.unwrittenRead (.hdr f)) := by
  simp [performAccess, readReg, hm, answerRead]

/-- A host read of an unwritten byte inside a buffer is the model fault that names the byte (R66, R208). -/
theorem rdb_of_unwritten {s : State} {b : Buf} {o : BitVec 5} (ho : o.toNat < 28)
    (hread : (s.buffer b).read o.toNat = none) :
    performAccess (.rdb b o) s = .fault (.unwrittenRead (bufferElement b o.toNat)) := by
  have hin : ¬ Config.bufferSize ≤ o.toNat := ho.not_ge
  simp only [performAccess, readByte, if_neg hin, hread, answerRead]

/-- Right after reset no header field is written (R230, R231). -/
theorem reset_marks_get (f : HdrField) : State.reset.marks.get f = false :=
  HdrMarks.get_fill false f

/-- Right after reset no byte of either buffer is written (R230, R231). -/
theorem reset_buffer_read (b : Buf) (a : Nat) : (State.reset.buffer b).read a = none := by
  cases b <;> rfl

end Sys2Proof.Machine

open Sys2Proof Sys2Proof.Machine Sys2Proof.Claims

/-- Settles O53: reset is the reset state around the host's own fields, with every mark clear and both buffers empty. -/
theorem resetClears : Obligations.ResetClears := fun s =>
  ⟨s.resetBlock, rfl, s.resetBlock_status, s.resetBlock_inLen, s.resetBlock_outLen, HdrMarks.get_fill false,
    fun _ => rfl, fun _ => rfl, s.resetBlock_pending, s.resetBlock_reads⟩

/-- Settles O54: DECODE finds IN_LEN 0 too small, and ENCODE and each of the host's reads meet a clear mark; the three
registers that hold a value read as 0. -/
theorem afterReset : Obligations.AfterReset := by
  have hfault : State.reset.status.fault = 0 := by decide
  have hdecode : exec .decode State.reset = .next (State.reset.raiseDecodeError .bufferTooSmall) :=
    execDecode_of_raises hfault (parseHeader_of_tooSmall (by decide))
  have hstatus : State.reset.status.report resultDecodeError DecodeError.bufferTooSmall.code lastDecode = 0x0016 := by
    decide
  obtain ⟨f, -, hencode⟩ := execEncode_of_unwritten hfault (reset_marks_get .version)
  obtain ⟨g, -, -, hrawSize⟩ := rd_rawSize_of_unwritten (.inl (reset_marks_get .entityLen))
  refine ⟨?_, ⟨f, hencode⟩, ⟨g, hrawSize⟩, fun f => rd_hdr_of_unwritten (reset_marks_get f),
    fun b o ho => rdb_of_unwritten ho (reset_buffer_read b o.toNat), rfl, rfl, rfl⟩
  rw [hdecode, State.raiseDecodeError, hstatus]

end

section
/-! Every access and every command keeps the model's invariants, and so does every step; what each command and each access
leaves alone (10_state.md R20 to R49). -/

namespace Sys2Proof.Machine

/-- A command, a reset, or an access that is neither. -/
theorem access_cases (a : Access) :
    (∃ c, a = .wr .cmd c) ∨ a = .reset ∨ ((∀ c, a ≠ .wr .cmd c) ∧ a ≠ .reset) := by
  by_cases hcmd : ∃ c, a = .wr .cmd c
  · exact .inl hcmd
  · by_cases hreset : a = .reset
    · exact .inr (.inl hreset)
    · exact .inr (.inr ⟨not_exists.mp hcmd, hreset⟩)

/-- A property that commands, resets and all other accesses keep is kept by every access. -/
theorem performAccess_keeps {P : State → Prop} (hcmd : ∀ i s t, P s → exec i s = .next t → P t)
    (hreset : ∀ s : State, P s.resetBlock)
    (hother : ∀ a s t, (∀ c, a ≠ .wr .cmd c) → a ≠ .reset → P s → performAccess a s = .next t → P t)
    {a : Access} {s t : State} (hs : P s) (h : performAccess a s = .next t) : P t := by
  rcases access_cases a with ⟨c, rfl⟩ | rfl | ⟨hc, hr⟩
  · exact hcmd _ _ _ hs h
  · rw [← Host.Outcome.next.inj h]
    exact hreset s
  · exact hother a s t hc hr hs h

/-- No access but a command and a reset writes OUT_LEN or OBUF (R22, R32, R64). -/
theorem performAccess_keeps_output {a : Access} {s t : State} (h : performAccess a s = .next t)
    (hcmd : ∀ c, a ≠ .wr .cmd c) (hreset : a ≠ .reset) : t.outLen = s.outLen ∧ t.obuf = s.obuf := by
  rcases performAccess_next h with ⟨v, rfl⟩ | ⟨c, hc, -⟩ | rfl | ⟨n, -, rfl⟩ | ⟨f, v, -, rfl⟩ |
    ⟨o, v, -, -, rfl⟩ | ⟨hr, -⟩
  case inr.inl => exact absurd hc (hcmd c)
  case inr.inr.inr.inr.inr.inr => exact absurd hr hreset
  all_goals exact ⟨rfl, rfl⟩

/-- Setting a mark clears none. -/
theorem HdrMarks.get_set_of_get {k : HdrMarks} {f : HdrField} (g : HdrField) (hf : k.get f = true) :
    (k.set g).get f = true := by
  rw [HdrMarks.get_set, hf, Bool.true_or]

/-- Writing a run of bytes never clears a written mark (R49). -/
theorem Memory.read_writeBytes_ne_none (m : Memory) (a : Nat) {b : Nat} (bs : List Byte) (h : m.read b ≠ none) :
    (m.writeBytes a bs).read b ≠ none := by
  induction bs generalizing m a with
  | nil => exact h
  | cons c bs ih => exact ih _ _ (m.read_write_ne_none a b c h)

/-- A command clears no header mark (R49). -/
theorem exec_keeps_marks {i : Instr} {s t : State} (h : exec i s = .next t) {f : HdrField}
    (hf : s.marks.get f = true) : t.marks.get f = true := by
  rcases exec_next h with rfl | ⟨-, c, rfl⟩ | ⟨e, -, rfl⟩ | ⟨k, -, rfl⟩ | ⟨-, legal, rfl⟩
  case inr.inr.inr.inl => exact HdrMarks.get_fill true f
  all_goals exact hf

/-- A command never writes IBUF, and clears no mark of OBUF (R49, R60). -/
theorem exec_keeps_written {i : Instr} {s t : State} (h : exec i s = .next t) :
    t.ibuf = s.ibuf ∧ ∀ o, s.obuf.read o ≠ none → t.obuf.read o ≠ none := by
  rcases exec_next h with rfl | ⟨-, c, rfl⟩ | ⟨e, -, rfl⟩ | ⟨k, -, rfl⟩ | ⟨-, legal, rfl⟩
  case inr.inr.inr.inr =>
    refine ⟨rfl, fun o ho => ?_⟩
    rw [State.reportOk_obuf, State.setOutLen_obuf, State.setObuf_obuf, emitHeader_eq]
    exact s.obuf.read_writeBytes_ne_none 0 _ ho
  all_goals exact ⟨rfl, fun _ ho => ho⟩

/-- No access but a reset clears a header mark (R49). -/
theorem performAccess_keeps_marks {a : Access} {s t : State} (h : performAccess a s = .next t) (hreset : a ≠ .reset)
    {f : HdrField} (hf : s.marks.get f = true) : t.marks.get f = true := by
  rcases performAccess_next h with ⟨v, rfl⟩ | ⟨c, -, hc⟩ | rfl | ⟨n, -, rfl⟩ | ⟨g, v, -, rfl⟩ |
    ⟨o, v, -, -, rfl⟩ | ⟨hr, -⟩
  case inr.inl => exact exec_keeps_marks hc hf
  case inr.inr.inr.inr.inl => exact HdrMarks.get_set_of_get g hf
  case inr.inr.inr.inr.inr.inr => exact absurd hr hreset
  all_goals exact hf

/-- No access but a reset clears a mark of either buffer (R49). -/
theorem performAccess_keeps_written {a : Access} {s t : State} (h : performAccess a s = .next t)
    (hreset : a ≠ .reset) :
    (∀ o, s.ibuf.read o ≠ none → t.ibuf.read o ≠ none) ∧ (∀ o, s.obuf.read o ≠ none → t.obuf.read o ≠ none) := by
  rcases performAccess_next h with ⟨v, rfl⟩ | ⟨c, -, hc⟩ | rfl | ⟨n, -, rfl⟩ | ⟨g, v, -, rfl⟩ |
    ⟨p, v, -, -, rfl⟩ | ⟨hr, -⟩
  case inr.inl =>
    obtain ⟨hibuf, hobuf⟩ := exec_keeps_written hc
    exact ⟨fun o ho => by rwa [hibuf], hobuf⟩
  case inr.inr.inr.inr.inr.inl => exact ⟨fun o ho => s.ibuf.read_write_ne_none p.toNat o v ho, fun _ ho => ho⟩
  case inr.inr.inr.inr.inr.inr => exact absurd hr hreset
  all_goals exact ⟨fun _ ho => ho, fun _ ho => ho⟩

end Sys2Proof.Machine

namespace Sys2Proof.Safety

open Sys2Proof.Machine

/-- OutputPresent looks at LAST_CMD, OUT_LEN and OBUF only. -/
theorem OutputPresent.congr {s t : State} (hs : OutputPresent s) (hcmd : t.status.lastCmd = s.status.lastCmd)
    (hlen : t.outLen = s.outLen) (hobuf : t.obuf = s.obuf) : OutputPresent t := by
  unfold OutputPresent
  rw [hcmd, hlen, hobuf]
  exact hs

/-- A report of DECODE leaves the output as it was. -/
theorem OutputPresent.of_lastDecode {s t : State} (hs : OutputPresent s) (hcmd : t.status.lastCmd = lastDecode)
    (hlen : t.outLen = s.outLen) (hobuf : t.obuf = s.obuf) : OutputPresent t := by
  refine ⟨?_, fun hencode => ?_⟩
  · rw [hlen, hobuf]
    exact hs.1
  · rw [hcmd] at hencode
    exact absurd hencode (by decide)

/-- A successful ENCODE leaves an output as long as OUT_LEN says (R181). -/
theorem outputPresent_of_encoded {t : State} {h : Hdr} (legal : h.Legal) {m : Memory}
    (hlen : t.outLen = BitVec.ofNat 5 h.rawSize) (hobuf : t.obuf = emitHeader h legal m) : OutputPresent t := by
  obtain ⟨hmin, hmax⟩ := rawSize_bounds legal
  have hsize : t.outLen.toNat = h.rawSize := by rw [hlen, toNat_ofNat_rawSize legal]
  refine ⟨.inr ⟨hmin.trans_eq hsize.symm, hsize.trans_le hmax, fun a ha => ?_⟩, fun _ hzero => ?_⟩
  · rw [hobuf]
    exact (holdsBytes_emitHeader legal m).read_ne_none (by rwa [headerBytes_length, ← hsize])
  · rw [hzero, show (0 : BitVec 5).toNat = 0 by rfl] at hsize
    omega

theorem exec_keeps_outputPresent {i : Instr} {s t : State} (hs : OutputPresent s) (h : exec i s = .next t) :
    OutputPresent t := by
  rcases exec_next h with rfl | ⟨-, c, rfl⟩ | ⟨e, -, rfl⟩ | ⟨k, -, rfl⟩ | ⟨-, legal, rfl⟩
  · exact hs
  · exact hs.congr (by simp) rfl rfl
  · exact hs.of_lastDecode (by simp) rfl rfl
  · exact hs.of_lastDecode (by simp) rfl rfl
  · exact outputPresent_of_encoded legal rfl rfl

theorem outputPresent_resetBlock (s : State) : OutputPresent s.resetBlock :=
  ⟨.inl rfl, fun h => absurd h (by rw [State.resetBlock_status]; decide)⟩

theorem exec_keeps_headerPresent {i : Instr} {s t : State} (hs : HeaderPresent s) (h : exec i s = .next t) :
    HeaderPresent t := by
  intro hok f
  rcases exec_next h with rfl | ⟨-, c, rfl⟩ | ⟨e, -, rfl⟩ | ⟨k, -, rfl⟩ | ⟨hm, legal, rfl⟩
  · exact hs hok f
  · exact hs (by simpa using hok) f
  · simp [resultOk, resultDecodeError] at hok
  · exact HdrMarks.get_fill true f
  · exact hm f

theorem headerPresent_resetBlock (s : State) : HeaderPresent s.resetBlock :=
  fun h => absurd h (by rw [State.resetBlock_status]; decide)

/-- A header register written has no clear mark, and the others stay. -/
theorem UnwrittenBlank.writeHdr {s : State} (hs : UnwrittenBlank s) (f : HdrField) (v : BitVec f.width) :
    UnwrittenBlank (s.writeHdr f v) := by
  intro g hg
  rw [State.writeHdr_marks, HdrMarks.get_set, Bool.or_eq_false_iff, beq_eq_false_iff_ne] at hg
  obtain ⟨hclear, hne⟩ := hg
  rw [State.writeHdr_hdr, Hdr.get_set_other s.hdr v hne]
  exact hs g hclear

theorem exec_keeps_unwrittenBlank {i : Instr} {s t : State} (hs : UnwrittenBlank s) (h : exec i s = .next t) :
    UnwrittenBlank t := by
  rcases exec_next h with rfl | ⟨-, c, rfl⟩ | ⟨e, -, rfl⟩ | ⟨k, -, rfl⟩ | ⟨-, legal, rfl⟩
  case inr.inr.inr.inl =>
    intro f hf
    rw [State.reportOk_marks, State.commitHdr_marks, HdrMarks.get_fill] at hf
    cases hf
  all_goals exact hs

theorem unwrittenBlank_resetBlock (s : State) : UnwrittenBlank s.resetBlock :=
  fun f _ => Hdr.get_blank f

theorem performAccess_keeps_unwrittenBlank {a : Access} {s t : State} (hs : UnwrittenBlank s)
    (h : performAccess a s = .next t) : UnwrittenBlank t := by
  rcases performAccess_next h with ⟨v, rfl⟩ | ⟨c, -, hc⟩ | rfl | ⟨n, -, rfl⟩ | ⟨f, v, -, rfl⟩ |
    ⟨o, v, -, -, rfl⟩ | ⟨-, rfl⟩
  case inr.inl => exact exec_keeps_unwrittenBlank hs hc
  case inr.inr.inr.inr.inl => exact hs.writeHdr f v
  case inr.inr.inr.inr.inr.inr => exact unwrittenBlank_resetBlock s
  all_goals exact hs

end Sys2Proof.Safety

open Sys2Proof Sys2Proof.Machine Sys2Proof.Safety

/-- Settles O57: a command writes OBUF inside its 28 bytes, the host writes IBUF inside its own, and a reset empties both. -/
theorem buffersStayCanonical : Obligations.BuffersStayCanonical := fun _ _ hs hstep =>
  step_keeps (P := BuffersCanonical) (fun _ _ hp => hp)
    (fun _ _ _ ⟨hi, ho⟩ ha => performAccess_buffers_wf ha hi ho) hs hstep

/-- Settles O58: only ENCODE writes OUT_LEN, together with the bytes below it, and no other report names ENCODE. -/
theorem outputStaysPresent : Obligations.OutputStaysPresent := by
  intro s t hs hstep
  refine step_keeps (P := OutputPresent) (fun _ _ hp => hp) (fun _ _ _ => ?_) hs hstep
  refine performAccess_keeps (fun _ _ _ => exec_keeps_outputPresent) outputPresent_resetBlock
    fun a u v hcmd hreset hu h => ?_
  obtain ⟨hlen, hobuf⟩ := performAccess_keeps_output h hcmd hreset
  exact hu.congr (by rw [performAccess_keeps_status h hcmd hreset]) hlen hobuf

/-- Settles O59: DECODE reports success with all marks set, ENCODE only if they are, and no access but a reset clears one. -/
theorem headerStaysPresent : Obligations.HeaderStaysPresent := by
  intro s t hs hstep
  refine step_keeps (P := HeaderPresent) (fun _ _ hp => hp) (fun _ _ _ => ?_) hs hstep
  refine performAccess_keeps (fun _ _ _ => exec_keeps_headerPresent) headerPresent_resetBlock
    fun a u v hcmd hreset hu h hok f => ?_
  rw [performAccess_keeps_status h hcmd hreset] at hok
  exact performAccess_keeps_marks h hreset (hu hok f)

/-- Settles O60: a field and its mark are written together, and DECODE sets all marks. -/
theorem unwrittenStaysBlank : Obligations.UnwrittenStaysBlank := fun _ _ hs hstep =>
  step_keeps (P := UnwrittenBlank) (fun _ _ hp => hp)
    (fun _ _ _ => performAccess_keeps_unwrittenBlank) hs hstep

/-- Settles O55: the reset state is what a reset makes of itself, and a reset meets each part. -/
theorem invHoldsAtReset : Obligations.InvHoldsAtReset where
  status := statusLegal_resetBlock State.reset
  buffers := reset_buffers_wf
  output := outputPresent_resetBlock State.reset
  header := headerPresent_resetBlock State.reset
  blank := unwrittenBlank_resetBlock State.reset

/-- Settles O49: the accesses left after commands and resets are reads and the host's writes of other elements. -/
theorem hostCannotWriteResults : Obligations.HostCannotWriteResults := fun _ _ _ h hcmd hreset =>
  ⟨performAccess_keeps_status h hcmd hreset, performAccess_keeps_output h hcmd hreset⟩

/-- Settles O50: each write sets marks, and a command's writes do too. -/
theorem marksOnlyGrow : Obligations.MarksOnlyGrow := fun _ _ _ h hreset =>
  ⟨fun _ => performAccess_keeps_marks h hreset, performAccess_keeps_written h hreset⟩

/-- Settles O48: DECODE writes the header and its report, ENCODE the output and its report or a fault, and the other commands
at most a fault. -/
theorem commandFrames : Obligations.CommandFrames := by
  intro i s t h
  by_cases hd : i = .decode
  · subst hd
    rcases execDecode_next h with ⟨-, rfl⟩ | ⟨-, e, -, -, rfl⟩ | ⟨-, k, -, rfl⟩ <;> simp
  · by_cases he : i = .encode
    · subst he
      rcases execEncode_next h with ⟨-, rfl⟩ | ⟨-, -, -, rfl⟩ | ⟨-, -, legal, rfl⟩ <;> simp
    · rcases exec_other_next hd he h with rfl | ⟨-, rfl⟩ <;> simp [hd]

end

section
/-! What DECODE and ENCODE depend on, how a command or an access ends when it has no next state, and DECODE of a complete
header (42_framer_commands.md, 60_exceptions.md R208). -/

namespace Sys2Proof.Machine

theorem except_bind_congr {ε α β : Type} {x : Except ε α} {f g : α → Except ε β} (h : ∀ a, x = .ok a → f a = g a) :
    (x >>= f) = (x >>= g) := by
  cases x with
  | error e => rfl
  | ok a => exact h a rfl

section
variable {n : BitVec 32} {m m' : Memory}

theorem readInput_congr {a : Nat} (h : m'.read a = m.read a) : readInput m' a = readInput m a := by
  rw [readInput, readInput, h]

theorem beExtract_congr {a w : Nat} (h : ∀ k < w, m'.read (a + k) = m.read (a + k)) :
    beExtract m' a w = beExtract m a w := by
  rw [beExtract, beExtract, Memory.readBytes_congr h]

/-- A checked field depends on offered bytes of the window only (R61, R62). -/
theorem beExtractChecked_congr {a w : Nat} (h : ∀ o, o < n.toNat → o < 28 → m'.read o = m.read o) (haw : a + w ≤ 28) :
    beExtractChecked n m' a w = beExtractChecked n m a w := by
  unfold beExtractChecked
  split
  · rfl
  · rw [beExtract_congr fun k hk => h (a + k) (by omega) (by omega)]

/-- DECODE's reading depends on offered bytes of the window only: three fields of at most 8 bytes after the first four stay
below 28 (R61, R62). -/
theorem parseHeader_congr (h : ∀ o, o < n.toNat → o < 28 → m'.read o = m.read o) :
    parseHeader n m' = parseHeader n m := by
  unfold parseHeader
  split
  · rfl
  rename_i hn
  simp only [Config.minHeaderSize, Config.fixedPrefixSize] at hn ⊢
  rw [readInput_congr (h 0 (by omega) (by omega))]
  refine except_bind_congr fun b0 _ => ?_
  rw [if_neg (version_in_range b0), if_neg (version_in_range b0),
    beExtract_congr fun k hk => h (1 + k) (by omega) (by omega), readInput_congr (h 3 (by omega) (by omega))]
  refine except_bind_congr fun raw _ => except_bind_congr fun b3 _ => ?_
  have hentity := (widthLegal_iff.mp (bfUnpack3_legal b3).1).2
  have htsnLen := (widthLegal_iff.mp (bfUnpack3_legal b3).2).2
  rw [beExtractChecked_congr h (by omega)]
  refine except_bind_congr fun ⟨src, o1⟩ hsrc => ?_
  obtain ⟨-, rfl, -⟩ := beExtractChecked_eq_ok.mp hsrc
  rw [beExtractChecked_congr h (by omega)]
  refine except_bind_congr fun ⟨tsn, o2⟩ htsn => ?_
  obtain ⟨-, rfl, -⟩ := beExtractChecked_eq_ok.mp htsn
  rw [beExtractChecked_congr h (by omega)]

end

/-- DECODE passes another window on, if its reading of the two is the same. -/
theorem execDecode_setIbuf {s : State} {m : Memory} (h : parseHeader s.inLen m = parseHeader s.inLen s.ibuf) :
    execDecode (s.setIbuf m) = mapNext (fun t => t.setIbuf m) (execDecode s) := by
  have hbody : decodeCommandBody (s.setIbuf m) = mapNext (fun t => t.setIbuf m) (decodeCommandBody s) := by
    rw [decodeCommandBody, State.setIbuf_inLen, State.setIbuf_ibuf, h, decodeCommandBody]
    cases parseHeader s.inLen s.ibuf with
    | ok k => rfl
    | error r => cases r <;> rfl
  rcases status_fault_cases s.status with hf | hf
  · rw [execDecode, execDecode, runUnlessFaulted_of_running (s := s.setIbuf m) hf, runUnlessFaulted_of_running hf, hbody]
  · rw [execDecode, execDecode, runUnlessFaulted_of_faulted (s := s.setIbuf m) hf, runUnlessFaulted_of_faulted hf]
    rfl

/-- ENCODE's operand depends on the header registers and their marks only (R187). -/
theorem readHeader_congr {s s' : State} (hhdr : s.hdr = s'.hdr) (hmarks : s.marks = s'.marks) :
    readHeader s = readHeader s' := by
  rw [readHeader, readHeader, hhdr, hmarks]

/-- What ENCODE writes below the header's size does not depend on what OBUF held (R187). -/
theorem read_emitHeader_congr {h h' : Hdr} (heq : h = h') (legal : h.Legal) (legal' : h'.Legal) (m m' : Memory) {a : Nat}
    (ha : a < h.rawSize) : (emitHeader h legal m).read a = (emitHeader h' legal' m').read a := by
  subst heq
  rw [← headerBytes_length h legal] at ha
  have hm := holdsBytes_emitHeader legal m a ha
  have hm' := holdsBytes_emitHeader legal' m' a ha
  rw [Nat.zero_add] at hm hm'
  rw [hm, hm']

/-- On a running block, an unwritten operand is the fault of the whole ENCODE (R180). -/
theorem execEncode_of_readHeader_error {s : State} {r : Fault} (hf : s.status.fault = 0)
    (hr : readHeader s = .error r) : execEncode s = .fault r := by
  rw [execEncode, runUnlessFaulted_of_running hf, encodeCommandBody, hr]

/-- What the FAULT gate lets fault is the command itself. -/
theorem runUnlessFaulted_fault {c : State → Host.Outcome State Fault Refusal} {s : State} {r : Fault}
    (h : runUnlessFaulted c s = .fault r) : c s = .fault r := by
  rcases status_fault_cases s.status with hf | hf
  · rwa [runUnlessFaulted_of_running hf] at h
  · rw [runUnlessFaulted_of_faulted hf] at h
    cases h

/-- The FAULT gate refuses nothing that the command does not refuse. -/
theorem runUnlessFaulted_refused {c : State → Host.Outcome State Fault Refusal} {s : State} {r : Refusal}
    (h : runUnlessFaulted c s = .refused r) : c s = .refused r := by
  rcases status_fault_cases s.status with hf | hf
  · rwa [runUnlessFaulted_of_running hf] at h
  · rw [runUnlessFaulted_of_faulted hf] at h
    cases h

/-- DECODE faults only where its reading does. -/
theorem execDecode_fault {s : State} {r : Fault} (h : execDecode s = .fault r) :
    parseHeader s.inLen s.ibuf = .error (.modelFault r) := by
  have hbody := runUnlessFaulted_fault h
  rw [decodeCommandBody] at hbody
  cases hp : parseHeader s.inLen s.ibuf with
  | ok k => simp [hp] at hbody
  | error stop =>
    cases stop with
    | raised e => simp [hp] at hbody
    | modelFault f => rw [hp] at hbody; rw [Host.Outcome.fault.inj hbody]

/-- ENCODE faults only where an operand is unwritten. -/
theorem execEncode_fault {s : State} {r : Fault} (h : execEncode s = .fault r) : readHeader s = .error r := by
  have hbody := runUnlessFaulted_fault h
  rw [encodeCommandBody] at hbody
  cases hr : readHeader s with
  | error f => simpa [hr] using hbody
  | ok k =>
    simp only [hr] at hbody
    split at hbody <;> cases hbody

/-- Only DECODE and ENCODE can end in a model fault. -/
theorem exec_fault {i : Instr} {s : State} {r : Fault} (h : exec i s = .fault r) :
    (i = .decode ∧ parseHeader s.inLen s.ibuf = .error (.modelFault r)) ∨ (i = .encode ∧ readHeader s = .error r) := by
  by_cases hd : i = .decode
  · subst hd
    exact .inl ⟨rfl, execDecode_fault h⟩
  by_cases he : i = .encode
  · subst he
    exact .inr ⟨rfl, execEncode_fault h⟩
  by_cases hn : i = .nop
  · subst hn
    cases runUnlessFaulted_fault h
  · rw [exec_of_reserved hn hd he] at h
    cases runUnlessFaulted_fault h

theorem decodeCommandBody_ne_refused (s : State) (r : Refusal) : decodeCommandBody s ≠ .refused r := by
  rw [decodeCommandBody]
  cases parseHeader s.inLen s.ibuf with
  | ok k => exact nofun
  | error stop => cases stop <;> exact nofun

theorem encodeCommandBody_ne_refused (s : State) (r : Refusal) : encodeCommandBody s ≠ .refused r := by
  rw [encodeCommandBody]
  cases readHeader s with
  | error f => exact nofun
  | ok h => dsimp only; split <;> exact nofun

/-- No command is refused: every code of the table has a meaning (R81). -/
theorem exec_ne_refused (i : Instr) (s : State) (r : Refusal) : exec i s ≠ .refused r := by
  intro h
  cases i with
  | nop => cases runUnlessFaulted_refused h
  | decode => exact decodeCommandBody_ne_refused s r (runUnlessFaulted_refused h)
  | encode => exact encodeCommandBody_ne_refused s r (runUnlessFaulted_refused h)
  | reserved03 | reserved04 | reserved08 | reserved10 | reserved20 | reserved40 | reserved80 =>
    cases runUnlessFaulted_refused h

theorem answerRead_ne_refused (x : Except Fault Data) (s : State) (r : Refusal) : answerRead x s ≠ .refused r := by
  cases x <;> exact nofun

/-- No access is refused. -/
theorem performAccess_ne_refused (a : Access) (s : State) (r : Refusal) : performAccess a s ≠ .refused r := by
  intro h
  cases a with
  | rd q => exact answerRead_ne_refused _ s r h
  | rdb b o => exact answerRead_ne_refused _ s r h
  | wrb b o v => cases h
  | reset => cases h
  | wr q v =>
    cases q with
    | cmd => exact exec_ne_refused _ s r h
    | status | inLen | outLen | rawSize | hdr | unmapped => cases h

theorem runLine_ne_refused (line : Line) (s : State) (r : Refusal) : runLine line s ≠ .refused r := by
  intro h
  rw [runLine] at h
  cases hl : lineAccesses line with
  | nil => simp [hl] at h
  | cons a more =>
    simp only [hl] at h
    cases ha : performAccess a s with
    | next t => simp [ha, mapNext] at h
    | fault f => simp [ha, mapNext] at h
    | refused q => exact performAccess_ne_refused a s q ha

/-- A step is refused only at a line that no host can write. -/
theorem step_refused {s : State} {r : Refusal} (h : step s = .refused r) :
    r = .illFormedLine ∧ ∃ line rest, s.pending = line :: rest ∧ line.wellFormed = false := by
  rw [step, hostStep] at h
  cases hp : s.pending with
  | nil => simp [hp] at h
  | cons line rest =>
    simp only [hp] at h
    split at h
    · exact absurd h (runLine_ne_refused line _ r)
    · rename_i hw
      exact ⟨(Host.Outcome.refused.inj h).symm, line, rest, rfl, by simpa using hw⟩

/-- A host read faults only where the value it asks for does. -/
theorem answerRead_fault {x : Except Fault Data} {s : State} {r : Fault} (h : answerRead x s = .fault r) :
    x = .error r := by
  cases x with
  | ok v => cases h
  | error f => rw [Host.Outcome.fault.inj h]

/-- An error code that a decode error can have is not INVALID_VERSION's (R202). -/
theorem decodeError_code_ne {e : DecodeError} (he : e ≠ .invalidVersion) : e.code ≠ 0b10 := by
  cases e with
  | invalidVersion => exact absurd rfl he
  | bufferTooSmall | truncatedVariableField => decide

/-- DATA_LEN as a number, for either value of CRC_FLAG (R140). -/
theorem crcAdjustDecode_toNat (raw : BitVec 16) (crc : Bit) :
    (crcAdjustDecode raw crc).toNat = if crc.toNat = 1 then (raw.toNat + 2 ^ 16 - 4) % 2 ^ 16 else raw.toNat := by
  rcases BitVec.eq_zero_or_eq_one crc with rfl | rfl
  · rfl
  · exact (crcAdjustsByFour.1 raw).1

end Sys2Proof.Machine

namespace Sys2Proof.Claims

open Sys2Proof.Machine

/-- A host read that faults names an unwritten element (R208). -/
theorem rd_fault_unwritten {q : Reg} {s : State} {r : Fault} (h : performAccess (.rd q) s = .fault r) :
    ∃ e, r = .unwrittenRead e ∧ Unwritten s e := by
  cases q with
  | cmd | status | inLen | outLen | unmapped => cases h
  | hdr f =>
    cases hm : s.marks.get f with
    | true => simp [performAccess, readReg, hm, answerRead] at h
    | false => exact ⟨.hdr f, (Host.Outcome.fault.inj ((rd_hdr_of_unwritten hm).symm.trans h)).symm, hm⟩
  | rawSize =>
    by_cases hm : s.marks.get .entityLen = true ∧ s.marks.get .tsnLen = true
    · cases (rd_rawSize_of_marks hm.1 hm.2).symm.trans h
    · obtain ⟨f, -, hclear, hfault⟩ := rd_rawSize_of_unwritten (s := s) (by simpa [or_iff_not_imp_left] using hm)
      exact ⟨.hdr f, (Host.Outcome.fault.inj (hfault.symm.trans h)).symm, hclear⟩

/-- A host read of a byte that faults names an unwritten byte inside its buffer (R66, R208). -/
theorem rdb_fault_unwritten {b : Buf} {o : BitVec 5} {s : State} {r : Fault}
    (h : performAccess (.rdb b o) s = .fault r) : ∃ e, r = .unwrittenRead e ∧ Unwritten s e := by
  have hread := answerRead_fault h
  rw [readByte] at hread
  split at hread
  · cases hread
  rename_i ho
  cases hb : (s.buffer b).read o.toNat with
  | some v => simp [hb] at hread
  | none =>
    simp only [hb, Except.error.injEq] at hread
    refine ⟨_, hread.symm, ?_⟩
    cases b <;> exact ⟨Nat.lt_of_not_le ho, hb⟩

/-- A command that faults names an unwritten element (R208). -/
theorem exec_fault_unwritten {i : Instr} {s : State} {r : Fault} (h : exec i s = .fault r) :
    ∃ e, r = .unwrittenRead e ∧ Unwritten s e := by
  rcases exec_fault h with ⟨-, hp⟩ | ⟨-, hr⟩
  · obtain ⟨o, rfl, -, ho, hnone⟩ := parseHeader_modelFault hp
    exact ⟨.ibuf o, rfl, ho, hnone⟩
  · obtain ⟨f, hm, rfl⟩ := readHeader_eq_error hr
    exact ⟨.hdr f, rfl, hm⟩

/-- The header that a complete run of bytes says (R84). -/
def headerAt (b : Nat → Byte) : Hdr :=
  headerOf (b 0) (bytesAt b 1 2) (b 3) (bytesAt b 4 (entityWidth b)) (bytesAt b (4 + entityWidth b) (tsnWidth b))
    (bytesAt b (4 + entityWidth b + tsnWidth b) (entityWidth b))

/-- A complete header inside the buffer parses. -/
theorem parsesTo_headerAt {b : Nat → Byte} {n : BitVec 32} {m : Memory} (hn : headerSize b ≤ n.toNat)
    (h : Holds m 0 (headerSize b) b) : ParsesTo n m (headerAt b) := by
  rw [headerSize_eq] at hn h
  have hentity := bfUnpack3_entityLen_eq_entityWidth b
  have htsn := bfUnpack3_tsnLen_eq_tsnWidth b
  have hrun {a w : Nat} (hle : a + w ≤ 4 + entityWidth b + tsnWidth b + entityWidth b) :
      m.readBytes a w = .ok (bytesAt b a w) := holds_iff_readBytes.mp (h.sub hle)
  refine ⟨_, _, _, _, _, _, h.read (by omega), hrun (by omega), h.read (by omega), ?_, ?_, ?_, ?_, rfl⟩ <;>
    simp only [hentity, htsn]
  · exact hrun (by omega)
  · exact hrun (by omega)
  · exact hrun (by omega)
  · exact hn

section
variable (b : Nat → Byte)

/-- The widths that byte 3 announces are at most 8 (R87). -/
theorem widths_le : entityWidth b ≤ 8 ∧ tsnWidth b ≤ 8 := by
  simp only [entityWidth, tsnWidth]
  omega

/-- A 64-bit register holds the number of any field of at most 8 bytes. -/
theorem toNat_ofNat_beValue_bytesAt (a : Nat) {w : Nat} (hw : w ≤ 8) :
    (BitVec.ofNat 64 (beValue (bytesAt b a w))).toNat = bigEndian b a w := by
  have hlt : bigEndian b a w < 2 ^ 64 :=
    (bigEndian_lt b a w).trans_le (Nat.pow_le_pow_right (by decide) (by omega))
  rw [beValue_bytesAt, BitVec.toNat_ofNat, Nat.mod_eq_of_lt hlt]

/-- The raw length of the wire: two bytes, the first one above the second (R86). -/
theorem toNat_rawLength :
    (BitVec.ofNat 16 (beValue (bytesAt b 1 2))).toNat = (b 1).toNat * 256 + (b 2).toNat := by
  have h1 := (b 1).isLt
  have h2 := (b 2).isLt
  rw [beValue_bytesAt, BitVec.toNat_ofNat, show bigEndian b 1 2 = (b 1).toNat * 256 + (b 2).toNat by
    simp [bigEndian, List.range_succ]]
  omega

end

end Sys2Proof.Claims

open Sys2Proof Sys2Proof.Machine Sys2Proof.Safety Sys2Proof.Claims

/-- Settles O32: the written header parses, DECODE commits it, and each field is what the codec gives for its bytes. -/
theorem decodeReadsHeader : Obligations.DecodeReadsHeader := by
  intro s b hf hn h
  obtain ⟨hentity, htsn⟩ := widths_le b
  refine ⟨_, execDecode_of_parsesTo hf (parsesTo_headerAt hn h), bfUnpack0_version_toNat _, bfUnpack0_pduType_toNat _,
    bfUnpack0_direction_toNat _, bfUnpack0_txMode_toNat _, bfUnpack0_crcFlag_toNat _, bfUnpack0_largeFile_toNat _, ?_,
    bfUnpack3_segCtrl_toNat _, bfUnpack3_entityLen_eq_entityWidth b, bfUnpack3_segMeta_toNat _,
    bfUnpack3_tsnLen_eq_tsnWidth b, toNat_ofNat_beValue_bytesAt b _ hentity, toNat_ofNat_beValue_bytesAt b _ htsn,
    toNat_ofNat_beValue_bytesAt b _ hentity, HdrMarks.get_fill true, reported_report _ _ _ _, fun hst => ?_, rfl⟩
  · refine (crcAdjustDecode_toNat _ _).trans ?_
    rw [toNat_rawLength, bfUnpack0_crcFlag_toNat]
  · exact (report_eq_of_statusLegal hst hf _ _ _).trans (by decide)

/-- Settles O35: DECODE's reading raises one of the other two errors only, and no other report has this code. -/
theorem invalidVersionNeverReported : Obligations.InvalidVersionNeverReported := by
  refine ⟨fun n m hp => ?_, fun i s t h herr => ?_⟩
  · rcases parseHeader_raises hp with ⟨he, -⟩ | ⟨he, -⟩ <;> cases he
  · rcases exec_next h with rfl | ⟨-, c, rfl⟩ | ⟨e, he, rfl⟩ | ⟨k, -, rfl⟩ | ⟨-, legal, rfl⟩
    · exact herr
    · simpa using herr
    · exact absurd (by simpa using herr) (decodeError_code_ne he)
    · simp [errNone] at herr
    · simp [errNone] at herr

/-- Settles O37: DECODE's reading of the two windows is the same, and its writes do not touch the window. -/
theorem decodeReadsOnlyOfferedBytes : Obligations.DecodeReadsOnlyOfferedBytes := fun _ _ h =>
  execDecode_setIbuf (parseHeader_congr h)

/-- Settles O45: DECODE's outcome is fixed by its reading, ENCODE's by its operand. -/
theorem commandsArePure : Obligations.CommandsArePure := by
  refine ⟨fun s₁ s₂ hf₁ hf₂ hlen hbytes => ?_, fun s₁ s₂ hf₁ hf₂ hhdr hmarks => ?_⟩
  · have hparse : parseHeader s₁.inLen s₁.ibuf = parseHeader s₂.inLen s₂.ibuf := by
      rw [← hlen]
      exact parseHeader_congr hbytes
    refine ⟨fun r h => execDecode_of_modelFault hf₂ (hparse.symm.trans (execDecode_fault h)), fun t₁ h => ?_⟩
    rcases execDecode_next h with ⟨hf, -⟩ | ⟨-, e, -, hraise, rfl⟩ | ⟨-, k, hk, rfl⟩
    · simp [hf₁] at hf
    · exact ⟨_, execDecode_of_raises hf₂ (hparse.symm.trans hraise), by simp [resultDecodeError]⟩
    · have hk₂ : ParsesTo s₂.inLen s₂.ibuf k := parseHeader_eq_ok.mp (hparse.symm.trans (parseHeader_eq_ok.mpr hk))
      exact ⟨_, execDecode_of_parsesTo hf₂ hk₂, by simp⟩
  · refine ⟨fun r h => execEncode_of_readHeader_error hf₂
      ((readHeader_congr hhdr hmarks).symm.trans (execEncode_fault h)), fun t₁ h => ?_⟩
    rcases execEncode_next h with ⟨hf, -⟩ | ⟨-, hm, hillegal, rfl⟩ | ⟨-, hm, legal, rfl⟩
    · simp [hf₁] at hf
    · rw [hmarks] at hm
      rw [hhdr] at hillegal
      exact ⟨_, execEncode_of_not_legal hf₂ hm hillegal, by simp⟩
    · have legal₂ : s₂.hdr.Legal := hhdr ▸ legal
      rw [hmarks] at hm
      refine ⟨_, execEncode_of_legal hf₂ hm legal₂, by simp [hf₁, hf₂], by simp [hf₁], fun _ => ?_⟩
      refine ⟨by simp, by simp, by simp, by simp [hhdr], fun a ha => ?_⟩
      have ha : a < s₂.hdr.rawSize := by rw [← hhdr]; exact ha.trans_eq (toNat_ofNat_rawSize legal)
      exact read_emitHeader_congr hhdr.symm legal₂ legal s₂.obuf s₁.obuf ha

/-- Settles O51: a read, DECODE and ENCODE fault only at an element they read; no other access faults. -/
theorem onlyUnwrittenReadsFault : Obligations.OnlyUnwrittenReadsFault := by
  intro a s r h
  cases a with
  | rd q => exact rd_fault_unwritten h
  | rdb b o => exact rdb_fault_unwritten h
  | wrb b o v => cases h
  | reset => cases h
  | wr q v =>
    cases q with
    | cmd => exact exec_fault_unwritten h
    | status | inLen | outLen | rawSize | hdr | unmapped => cases h

/-- Settles O52: every command and access completes or faults; the step's own check is the one refusal. -/
theorem nothingIsRefused : Obligations.NothingIsRefused :=
  ⟨exec_ne_refused, performAccess_ne_refused, fun _ _ => step_refused⟩

/-- Settles O29: the seven rows share one meaning, which raises ILLEGAL_CMD on a running block. -/
theorem reservedRowsComplete : Obligations.ReservedRowsComplete := by
  intro s hf
  have hraise {i : Instr} (hn : i ≠ .nop) (hd : i ≠ .decode) (he : i ≠ .encode) :
      ∃ t, exec i s = .next t ∧ FaultRaised s 0b01 t :=
    ⟨_, (exec_of_reserved hn hd he s).trans (runUnlessFaulted_of_running hf), faultRaised_raiseFault s .illegalCmd⟩
  exact ⟨hraise nofun nofun nofun, fun _ => hraise nofun nofun nofun, fun _ => hraise nofun nofun nofun,
    fun _ => hraise nofun nofun nofun, fun _ => hraise nofun nofun nofun, fun _ => hraise nofun nofun nofun,
    fun _ => hraise nofun nofun nofun⟩

end

section
/-! The host's side (10_state.md R22, 20_memory.md R66, 30_encoding.md R93): its accesses one by one, and the steps its script
lines take. -/

namespace Sys2Proof

/-- The register a number selects has that number. -/
theorem Reg.number_ofNumber (n : BitVec 8) : (Reg.ofNumber n).number = n := by
  rw [Reg.ofNumber]
  cases h : Reg.mapped.find? fun r => r.number == n with
  | none => rfl
  | some r => simpa using List.find?_some h

end Sys2Proof

namespace Sys2Proof.Machine

section
variable (s : State) (v : Data)

/-- No register shows what the host has read. -/
theorem readReg_pushRead (r : Reg) : readReg r (s.pushRead v) = readReg r s := by
  cases r <;> rfl

/-- No buffer byte shows what the host has read. -/
theorem readByte_pushRead (b : Buf) (o : BitVec 5) : readByte b o (s.pushRead v) = readByte b o s := by
  cases b <;> rfl

end

/-- A host read that completes hands over the value and changes nothing else. -/
theorem answerRead_of_ok {x : Except Fault Data} {v : Data} (h : x = .ok v) (s : State) :
    answerRead x s = .next (s.pushRead v) := by
  rw [h]
  rfl

/-- A host read of a written header field gives its value (R22). -/
theorem rd_hdr_of_written {s : State} {f : HdrField} (hm : s.marks.get f = true) :
    performAccess (.rd (.hdr f)) s = .next (s.pushRead ((s.hdr.get f).setWidth 64)) :=
  answerRead_of_ok (if_pos hm) s

/-- A host read of a written byte inside a buffer gives it (R66). -/
theorem rdb_of_written {s : State} {b : Buf} {o : BitVec 5} {v : Byte} (ho : o.toNat < 28)
    (hread : (s.buffer b).read o.toNat = some v) :
    performAccess (.rdb b o) s = .next (s.pushRead (v.setWidth 64)) := by
  have hin : ¬ Config.bufferSize ≤ o.toNat := ho.not_ge
  refine answerRead_of_ok ?_ s
  simp only [readByte, if_neg hin, hread]

/-- A host write inside IBUF stores the byte (R60). -/
theorem wrb_ibuf_of_lt {o : BitVec 5} (ho : o.toNat < 28) (v : Byte) (s : State) :
    performAccess (.wrb .ibuf o v) s = .next (s.setIbuf (s.ibuf.write o.toNat v)) := by
  have hin : ¬ Config.bufferSize ≤ o.toNat := ho.not_ge
  simp only [performAccess, writeByte, if_neg hin]

/-- A host write past IBUF is ignored (R66). -/
theorem wrb_ibuf_of_ge {o : BitVec 5} (ho : 28 ≤ o.toNat) (v : Byte) (s : State) :
    performAccess (.wrb .ibuf o v) s = .next s := by
  have hout : Config.bufferSize ≤ o.toNat := ho
  simp only [performAccess, writeByte, if_pos hout]

/-! One step of each kind of line. -/

/-- A step at a well-formed line runs it. -/
theorem step_of_line {s : State} {line : Line} {rest : List Line} (hp : s.pending = line :: rest)
    (hw : line.wellFormed = true) : step s = runLine line (s.setPending rest) := by
  rw [step, hostStep, hp]
  exact if_pos hw

/-- A line with an access makes it, and then stands before the pending lines with what is left of it (R93). -/
theorem runLine_of_cons {line : Line} {a : Access} {more : List Access} (ha : lineAccesses line = a :: more) (s : State) :
    runLine line s = mapNext
      (fun t => t.setPending (more.map .access ++ lineAfterRead t.lastRead line ++ t.pending)) (performAccess a s) := by
  rw [runLine, ha]

theorem mapNext_id (o : Host.Outcome State Fault Refusal) : mapNext (fun t => t) o = o := by
  cases o <;> rfl

/-- A line of one access that goes on with nothing is that access. -/
theorem runLine_of_single {line : Line} {a : Access} (ha : lineAccesses line = [a])
    (hafter : ∀ v, lineAfterRead v line = []) (s : State) : runLine line s = performAccess a s := by
  rw [runLine_of_cons ha]
  simp only [hafter, List.map_nil, List.nil_append, State.setPending_self]
  exact mapNext_id _

/-- A step at an access line makes that access (R244). -/
theorem step_of_access {s : State} {a : Access} {rest : List Line} (hp : s.pending = .access a :: rest)
    (hw : a.wellFormed = true) : step s = performAccess a (s.setPending rest) :=
  (step_of_line hp hw).trans (runLine_of_single rfl (fun _ => rfl) _)

/-- The same, of a state given by its pending lines. -/
theorem step_setPending_access (s : State) {a : Access} (rest : List Line) (hw : a.wellFormed = true) :
    step (s.setPending (.access a :: rest)) = performAccess a (s.setPending rest) :=
  step_of_access rfl hw

/-- A step at a line that the host expands into one read hands over the value and goes on as the line says (R93). -/
theorem step_of_readLine {s : State} {line : Line} {rest : List Line} {a : Access} {v : Data}
    (hp : s.pending = line :: rest) (hw : line.wellFormed = true) (ha : lineAccesses line = [a])
    (hread : performAccess a (s.setPending rest) = .next ((s.setPending rest).pushRead v)) :
    step s = .next ((s.pushRead v).setPending (lineAfterRead v line ++ rest)) := by
  rw [step_of_line hp hw, runLine_of_cons ha, hread]
  rfl

/-! No access looks at the pending lines, so a line that reads nothing is the accesses it expands into. -/

section
variable (s : State) (p : List Line)

theorem runUnlessFaulted_setPending {c : State → Host.Outcome State Fault Refusal}
    (hc : c (s.setPending p) = mapNext (fun t => t.setPending p) (c s)) :
    runUnlessFaulted c (s.setPending p) = mapNext (fun t => t.setPending p) (runUnlessFaulted c s) := by
  rcases status_fault_cases s.status with hf | hf
  · rw [runUnlessFaulted_of_running (s := s.setPending p) hf, runUnlessFaulted_of_running hf, hc]
  · rw [runUnlessFaulted_of_faulted (s := s.setPending p) hf, runUnlessFaulted_of_faulted hf]
    rfl

theorem decodeCommandBody_setPending :
    decodeCommandBody (s.setPending p) = mapNext (fun t => t.setPending p) (decodeCommandBody s) := by
  rw [decodeCommandBody, State.setPending_inLen, State.setPending_ibuf, decodeCommandBody]
  cases parseHeader s.inLen s.ibuf with
  | ok k => rfl
  | error stop => cases stop <;> rfl

theorem encodeCommandBody_setPending :
    encodeCommandBody (s.setPending p) = mapNext (fun t => t.setPending p) (encodeCommandBody s) := by
  rw [encodeCommandBody, encodeCommandBody, show readHeader (s.setPending p) = readHeader s by rfl]
  cases readHeader s with
  | error f => rfl
  | ok h =>
    dsimp only
    split <;> rfl

theorem exec_setPending (i : Instr) : exec i (s.setPending p) = mapNext (fun t => t.setPending p) (exec i s) := by
  cases i with
  | decode => exact runUnlessFaulted_setPending s p (decodeCommandBody_setPending s p)
  | encode => exact runUnlessFaulted_setPending s p (encodeCommandBody_setPending s p)
  | nop | reserved03 | reserved04 | reserved08 | reserved10 | reserved20 | reserved40 | reserved80 =>
    exact runUnlessFaulted_setPending s p rfl

theorem answerRead_setPending (x : Except Fault Data) :
    answerRead x (s.setPending p) = mapNext (fun t => t.setPending p) (answerRead x s) := by
  cases x <;> rfl

theorem readReg_setPending (r : Reg) : readReg r (s.setPending p) = readReg r s := by
  cases r <;> rfl

theorem readByte_setPending (b : Buf) (o : BitVec 5) : readByte b o (s.setPending p) = readByte b o s := by
  cases b <;> rfl

theorem writeByte_setPending (b : Buf) (o : BitVec 5) (v : Byte) :
    writeByte b o v (s.setPending p) = (writeByte b o v s).setPending p := by
  cases b with
  | obuf => rfl
  | ibuf =>
    simp only [writeByte]
    split <;> rfl

/-- An access does to the block what it does whatever the host has pending. -/
theorem performAccess_setPending (a : Access) :
    performAccess a (s.setPending p) = mapNext (fun t => t.setPending p) (performAccess a s) := by
  cases a with
  | rd r => simp only [performAccess, readReg_setPending, answerRead_setPending]
  | rdb b o => simp only [performAccess, readByte_setPending, answerRead_setPending]
  | wrb b o v => simp only [performAccess, writeByte_setPending, mapNext]
  | reset => rfl
  | wr r v =>
    cases r with
    | cmd => exact exec_setPending s p (decodeCommand v)
    | status | inLen | outLen | rawSize | hdr | unmapped => rfl

end

/-- LOADBUF's byte writes all address IBUF. -/
theorem wellFormed_of_mem_loadBytes {a : Access} {i : Nat} {bs : List Byte} (h : a ∈ loadBytes i bs) :
    a.wellFormed = true := by
  induction bs generalizing i with
  | nil => cases h
  | cons b bs ih =>
    rcases List.mem_cons.mp h with rfl | h
    · rfl
    · exact ih h

/-- The accesses of a line that a host can write are accesses that a host can make. -/
theorem wellFormed_of_mem_lineAccesses {line : Line} (hw : line.wellFormed = true) {a : Access}
    (ha : a ∈ lineAccesses line) : a.wellFormed = true := by
  cases line with
  | access b => rwa [List.mem_singleton.mp ha]
  | loadBuf bytes =>
    rcases List.mem_append.mp ha with h | h
    · exact wellFormed_of_mem_loadBytes h
    · rw [List.mem_singleton.mp h]
      rfl
  | setHdr fields =>
    obtain ⟨fv, -, rfl⟩ := List.mem_map.mp ha
    rfl
  | ifBits r hi lo v line =>
    simp only [Line.wellFormed, Bool.and_eq_true] at hw
    rw [List.mem_singleton.mp ha]
    exact hw.1.1
  | comment text => cases ha
  | nop | decode | encode | copyOut | copyByte =>
    rw [List.mem_singleton.mp ha]
    rfl

/-- A step at a line that reads nothing is a step at the access lines it stands for (R93). -/
theorem step_of_expansion {s : State} {line : Line} {rest : List Line} (hp : s.pending = line :: rest)
    (hw : line.wellFormed = true) (hne : lineAccesses line ≠ []) (hafter : ∀ v, lineAfterRead v line = []) :
    step s = step (s.setPending ((lineAccesses line).map .access ++ rest)) := by
  obtain ⟨a, more, ha⟩ := List.exists_cons_of_ne_nil hne
  have hwa : a.wellFormed = true := wellFormed_of_mem_lineAccesses hw (by rw [ha]; exact List.mem_cons_self)
  rw [step_of_line hp hw, runLine_of_cons ha, ha, List.map_cons, List.cons_append, step_setPending_access s _ hwa,
    performAccess_setPending s rest, performAccess_setPending s (more.map Line.access ++ rest)]
  simp only [hafter, List.append_nil]
  cases performAccess a s <;> rfl

/-- So are any number of steps from there. -/
theorem stepTimes_of_expansion {s : State} {line : Line} {rest : List Line} (hp : s.pending = line :: rest)
    (hw : line.wellFormed = true) (hne : lineAccesses line ≠ []) (hafter : ∀ v, lineAfterRead v line = []) {n : Nat}
    (hn : n ≠ 0) :
    Safety.stepTimes n s = Safety.stepTimes n (s.setPending ((lineAccesses line).map .access ++ rest)) := by
  obtain ⟨k, rfl⟩ := Nat.exists_eq_succ_of_ne_zero hn
  simp only [Safety.stepTimes, step_of_expansion hp hw hne hafter]

/-! The loops of SETHDR, LOADBUF and COPYOUT. -/

/-- The writes of a SETHDR line take a step each, and leave `k` steps to what follows them. -/
theorem stepTimes_setHdr (fields : List FieldValue) (s : State) (rest : List Line) (k : Nat) :
    Safety.stepTimes (fields.length + k) (s.setPending ((lineAccesses (.setHdr fields)).map .access ++ rest)) =
      Safety.stepTimes k ((fields.foldl (fun u fv => u.writeHdr fv.field fv.value) s).setPending rest) := by
  induction fields generalizing s with
  | nil => rw [List.length_nil, Nat.zero_add]; rfl
  | cons fv fields ih =>
    rw [List.length_cons, Nat.add_right_comm]
    exact (stepTimes_of_next (step_setPending_access s (a := .wr (.hdr fv.field) fv.value) _ rfl) _).trans
      (ih (s.writeHdr fv.field fv.value))

/-- An offset inside the buffer is its own 5-bit number. -/
theorem toNat_ofNat_offset {i : Nat} (hi : i < 28) : (BitVec.ofNat 5 i).toNat = i := by
  rw [BitVec.toNat_ofNat]
  omega

/-- A step at a pending write of an IBUF byte stores it. -/
theorem step_wrb_ibuf (s : State) {i : Nat} (hi : i < 28) (b : Byte) (rest : List Line) :
    step (s.setPending (.access (.wrb .ibuf (BitVec.ofNat 5 i) b) :: rest)) =
      .next ((s.setIbuf (s.ibuf.write i b)).setPending rest) := by
  rw [step_setPending_access s rest rfl, wrb_ibuf_of_lt (by rwa [toNat_ofNat_offset hi]), toNat_ofNat_offset hi]
  rfl

/-- LOADBUF's byte writes take a step each and store the bytes from offset `i` up. -/
theorem stepTimes_loadBytes {bytes : List Byte} {i : Nat} (hle : i + bytes.length ≤ 28) (s : State)
    (rest : List Line) (k : Nat) :
    Safety.stepTimes (bytes.length + k) (s.setPending ((loadBytes i bytes).map .access ++ rest)) =
      Safety.stepTimes k ((s.setIbuf (s.ibuf.writeBytes i bytes)).setPending rest) := by
  induction bytes generalizing i s with
  | nil => rw [List.length_nil, Nat.zero_add]; rfl
  | cons b bytes ih =>
    rw [List.length_cons] at hle ⊢
    rw [Nat.add_right_comm]
    exact (stepTimes_of_next (step_wrb_ibuf s (by omega) b _) _).trans
      (ih (by omega) (s.setIbuf (s.ibuf.write i b)))

/-- The rounds of COPYOUT's loop for `n` bytes from offset `i` up. -/
def copyRounds (i n : Nat) : List Line :=
  (List.range' i n).map fun j => .copyByte (BitVec.ofNat 5 j)

theorem copyRounds_succ (i n : Nat) :
    copyRounds i (n + 1) = .copyByte (BitVec.ofNat 5 i) :: copyRounds (i + 1) n := rfl

/-- What COPYOUT goes on with, once OUT_LEN has been read (R93). -/
theorem lineAfterRead_copyOut (v : Data) :
    lineAfterRead v .copyOut = copyRounds 0 v.toNat ++ [.access (.wr .inLen (v.setWidth 32))] := by
  rw [lineAfterRead, copyRounds, List.range_eq_range']

/-- One round takes two steps, a read of OBUF and a write of IBUF (R93). -/
theorem stepTimes_copyByte {s : State} {i : Nat} {b : Byte} (hread : s.obuf.read i = some b) (hi : i < 28)
    (rest : List Line) (k : Nat) :
    Safety.stepTimes (k + 2) (s.setPending (.copyByte (BitVec.ofNat 5 i) :: rest)) =
      Safety.stepTimes k (((s.pushRead (b.setWidth 64)).setIbuf (s.ibuf.write i b)).setPending rest) := by
  have hrdb : performAccess (.rdb .obuf (BitVec.ofNat 5 i)) (s.setPending rest) =
      .next ((s.setPending rest).pushRead (b.setWidth 64)) :=
    rdb_of_written (by rwa [toNat_ofNat_offset hi]) (by rwa [toNat_ofNat_offset hi])
  have hbyte : (b.setWidth 64).setWidth 8 = b := by
    rw [BitVec.setWidth_setWidth_of_le _ (by decide), BitVec.setWidth_eq]
  have hstep := step_of_readLine (s := s.setPending (.copyByte (BitVec.ofNat 5 i) :: rest)) rfl rfl rfl hrdb
  rw [stepTimes_of_next hstep, lineAfterRead, hbyte]
  exact stepTimes_of_next (step_wrb_ibuf (s.pushRead (b.setWidth 64)) hi b rest) k

/-- The rounds copy the output bytes to the same offsets of IBUF; else only what the host has read changes. -/
theorem stepTimes_copyRounds {bs : List Byte} {i : Nat} (hle : i + bs.length ≤ 28) {s : State}
    (hbs : s.obuf.HoldsBytes i bs) (rest : List Line) (k : Nat) :
    ∃ rs, Safety.stepTimes (2 * bs.length + k) (s.setPending (copyRounds i bs.length ++ rest)) =
      Safety.stepTimes k { s with ibuf := s.ibuf.writeBytes i bs, pending := rest, reads := rs } := by
  induction bs generalizing i s with
  | nil => exact ⟨s.reads, by rw [List.length_nil, Nat.mul_zero, Nat.zero_add]; rfl⟩
  | cons b bs ih =>
    obtain ⟨hb, hbs⟩ := Memory.holdsBytes_cons.mp hbs
    rw [List.length_cons] at hle ⊢
    obtain ⟨rs, hrs⟩ := ih (s := (s.pushRead (b.setWidth 64)).setIbuf (s.ibuf.write i b)) (by omega) hbs
    refine ⟨rs, ?_⟩
    rw [copyRounds_succ, List.cons_append, show 2 * (bs.length + 1) + k = 2 * bs.length + k + 2 by omega,
      stepTimes_copyByte hb (by omega), hrs]
    rfl

/-- Bytes that are all written are some list of bytes. -/
theorem Memory.exists_holdsBytes {m : Memory} {n : Nat} (h : ∀ a < n, m.read a ≠ none) :
    ∃ bs, bs.length = n ∧ m.HoldsBytes 0 bs := by
  cases hr : m.readBytes 0 n with
  | ok bs => exact ⟨bs, Memory.readBytes_eq_ok_iff_holdsBytes.mp hr⟩
  | error o =>
    obtain ⟨-, ho, hnone, -⟩ := Memory.readBytes_eq_error.mp hr
    exact absurd hnone (h o (by omega))

/-- A line's next access is a reset only if the line is one. -/
theorem eq_access_reset_of_lineAccesses {line : Line} {more : List Access} (h : lineAccesses line = .reset :: more) :
    line = .access .reset := by
  cases line with
  | access a => rw [(List.cons.inj h).1]
  | loadBuf bytes => cases bytes <;> cases h
  | setHdr fields => cases fields <;> cases h
  | nop | decode | encode | copyOut | copyByte | ifBits | comment => cases h

/-- An access on a faulted block leaves STATUS, OUT_LEN and OBUF, or is a reset (R210). -/
theorem performAccess_of_faulted {a : Access} {s t : State} (hf : s.status.fault = 1)
    (h : performAccess a s = .next t) :
    (t.status = s.status ∧ t.outLen = s.outLen ∧ t.obuf = s.obuf) ∨ (a = .reset ∧ t.status = 0x0000) := by
  rcases access_cases a with ⟨c, rfl⟩ | rfl | ⟨hc, hr⟩
  · rw [← Host.Outcome.next.inj ((exec_of_faulted hf (decodeCommand c)).symm.trans h)]
    exact .inl ⟨rfl, rfl, rfl⟩
  · rw [← Host.Outcome.next.inj h]
    exact .inr ⟨rfl, State.resetBlock_status s⟩
  · exact .inl ⟨performAccess_keeps_status h hc hr, performAccess_keeps_output h hc hr⟩

end Sys2Proof.Machine

open Sys2Proof Sys2Proof.Machine Sys2Proof.Safety Sys2Proof.Claims

/-- Settles O3: a command is one byte, and its code decodes to it. -/
theorem decodeOfEncode : Obligations.DecodeOfEncode := by
  intro i rest
  have hhead : decodeBytes (encode i ++ rest) = .ok (decodeCommand (encodeCommand i), rest) := rfl
  rw [hhead, decodeCommand_encodeCommand]

/-- Settles O6: the line is its byte writes, which leave IBUF as one run of writes does, and the write of IN_LEN. -/
theorem loadBufLoads : Obligations.LoadBufLoads := by
  intro s bytes rest hp hle
  have hlen : (BitVec.ofNat 32 bytes.length).toNat = bytes.length := by
    rw [BitVec.toNat_ofNat]
    omega
  refine ⟨((s.setIbuf (s.ibuf.writeBytes 0 bytes)).setInLen (BitVec.ofNat 32 bytes.length)).setPending rest, ?_,
    fun a => ?_, hlen, rfl⟩
  · rw [stepTimes_of_expansion hp (decide_eq_true hle) (by simp [lineAccesses]) (fun _ => rfl) (by omega), lineAccesses,
      List.map_append, List.append_assoc, stepTimes_loadBytes (by omega)]
    exact stepTimes_of_next (step_setPending_access _ (a := .wr .inLen _) rest rfl) 0
  · refine (Memory.read_writeBytes s.ibuf 0 a bytes).trans ?_
    simp only [Nat.zero_le, true_and, Nat.zero_add, Nat.sub_zero]

/-- Settles O7: the line is its writes, by induction on the fields. -/
theorem setHdrWritesInOrder : Obligations.SetHdrWritesInOrder := by
  intro s fields rest hp hne
  rw [stepTimes_of_expansion hp rfl (by simpa [lineAccesses] using hne) (fun _ => rfl) (by simpa using hne)]
  exact stepTimes_setHdr fields s rest 0

/-- Settles O8: the read of OUT_LEN, the rounds by induction on the output bytes, and the write of IN_LEN. -/
theorem copyOutCopies : Obligations.CopyOutCopies := by
  intro s rest hp hle hwritten
  obtain ⟨bs, hlen, hbs⟩ := Memory.exists_holdsBytes hwritten
  have hdata : (s.outLen.setWidth 64 : Data).toNat = bs.length := by
    rw [BitVec.toNat_setWidth_of_le (by decide), hlen]
  have hinLen : ((s.outLen.setWidth 64 : Data).setWidth 32).toNat = bs.length := by
    rw [BitVec.toNat_setWidth, hdata]
    omega
  obtain ⟨rs, hrs⟩ := stepTimes_copyRounds (s := s.pushRead (s.outLen.setWidth 64)) (i := 0) (by omega) hbs
    (.access (.wr .inLen ((s.outLen.setWidth 64 : Data).setWidth 32)) :: rest) 1
  rw [← hlen]
  refine ⟨{ s with ibuf := s.ibuf.writeBytes 0 bs, inLen := (s.outLen.setWidth 64 : Data).setWidth 32,
                   pending := rest, reads := rs }, ?_, fun a => ?_, hinLen, rfl⟩
  · rw [stepTimes_of_next (step_of_readLine (v := s.outLen.setWidth 64) hp rfl rfl rfl), lineAfterRead_copyOut, hdata,
      List.append_assoc]
    exact hrs.trans (stepTimes_of_next (step_of_access (a := .wr .inLen _) rfl rfl) 0)
  · refine (Memory.read_writeBytes s.ibuf 0 a bs).trans ?_
    simp only [Nat.zero_le, true_and, Nat.zero_add, Nat.sub_zero]
    split
    · rename_i ha
      rw [← hbs a ha, Nat.zero_add]
    · rfl

/-- Settles O47: a faulted block ignores a command, and of the other accesses only a reset writes these elements. -/
theorem faultStaysUntilReset : Obligations.FaultStaysUntilReset := by
  intro s t hf hstep
  rcases step_next hstep with ⟨-, rfl⟩ | ⟨line, rest, hp, -, ⟨-, rfl⟩ | ⟨a, more, u, ha, hu, rfl⟩⟩
  · exact .inl ⟨rfl, rfl, rfl⟩
  · exact .inl ⟨rfl, rfl, rfl⟩
  · rcases performAccess_of_faulted (s := s.setPending rest) hf hu with hkept | ⟨rfl, hstatus⟩
    · exact .inl hkept
    · exact .inr ⟨⟨rest, by rw [hp, eq_access_reset_of_lineAccesses ha]⟩, hstatus⟩

/-- Settles O4: each of these lines is one write of a code to CMD, which runs the command the code decodes to. -/
theorem stepRunsIssuedCommand : Obligations.StepRunsIssuedCommand := by
  have hcmd (s : State) (c : Byte) (rest : List Line) (hp : s.pending = .access (.wr .cmd c) :: rest) :
      step s = exec (decodeCommand c) (s.setPending rest) := step_of_access hp rfl
  have hline {s : State} {line : Line} {rest : List Line} {i : Instr} (hp : s.pending = line :: rest)
      (hw : line.wellFormed = true) (ha : lineAccesses line = [.wr .cmd (encodeCommand i)])
      (hafter : ∀ v, lineAfterRead v line = []) : step s = exec i (s.setPending rest) := by
    rw [step_of_line hp hw, runLine_of_single ha hafter]
    exact congrArg (fun j => exec j (s.setPending rest)) (decodeCommand_encodeCommand i)
  refine ⟨hcmd, fun s rest hp => hline hp rfl rfl fun _ => rfl, fun s rest hp => hline hp rfl rfl fun _ => rfl,
    fun s rest hp => hline hp rfl rfl fun _ => rfl, fun s i => ?_⟩
  have hword : BitVec.ofNat 8 ((encodeCommand i).toNat % 2 ^ 8) = encodeCommand i := by
    rw [Nat.mod_eq_of_lt (encodeCommand i).isLt, BitVec.ofNat_toNat, BitVec.setWidth_eq]
  rw [State.withFetchWord, State.withCommandNext, hword, hcmd _ (encodeCommand i) s.pending rfl,
    decodeCommand_encodeCommand, State.setPending_setPending, State.setPending_self]

/-- Settles O5: the three cases of a step, by what is pending. -/
theorem stepMakesOneAccess : Obligations.StepMakesOneAccess := by
  refine ⟨fun s a rest hp hw => step_of_access hp hw, fun s hp => ?_, fun s line rest hp hw => ?_⟩
  · rw [step, hostStep, hp]
  · rw [step, hostStep, hp]
    exact if_neg (by simp [hw])

/-- Settles O9: the step is the read of the register, and the bits of its value are what division and remainder leave. -/
theorem ifBranchesOnBits : Obligations.IfBranchesOnBits := by
  intro s r hi lo v line rest x hp hw hx
  have hread : performAccess (.rd r) (s.setPending rest) = .next ((s.setPending rest).pushRead x) :=
    answerRead_of_ok ((readReg_setPending s rest r).trans hx) _
  have hbits : (x.extractLsb hi lo).toNat = x.toNat / 2 ^ lo % 2 ^ (hi - lo + 1) := by
    rw [BitVec.extractLsb_toNat, Nat.shiftRight_eq_div_pow]
  rw [step_of_readLine hp hw rfl hread, lineAfterRead, hbits]
  split <;> rfl

/-- Settles O1: the ten codes, decoded. -/
theorem commandWordsDecode : Obligations.CommandWordsDecode := by
  unfold Obligations.CommandWordsDecode
  decide

/-- Settles O10: the table's rows as written out, and a check of each of the 256 numbers. -/
theorem registerMap : Obligations.RegisterMap := by
  have hwellFormed : ∀ n : BitVec 8, (Reg.ofNumber n).wellFormed = true := by decide
  have hunmapped : ∀ n : BitVec 8, Reg.ofNumber n = .unmapped n ↔
      (0x05 ≤ n.toNat ∧ n.toNat ≤ 0x0F) ∨ (0x1E ≤ n.toNat ∧ n.toNat ≤ 0xFF) := by decide
  exact ⟨by decide, by decide, by decide, fun n => ⟨Reg.number_ofNumber n, hwellFormed n⟩, hunmapped⟩

/-- Settles O11: each register's read, and the mark that a header field's read looks at first. -/
theorem hostReadsRegisters : Obligations.HostReadsRegisters := fun _ =>
  ⟨rfl, rfl, rfl, rfl, fun _ => rd_hdr_of_written, fun _ => rd_hdr_of_unwritten, fun _ => rfl⟩

/-- Settles O12: a write of a header field sets that field and its mark in their two records. -/
theorem hostWritesRegisters : Obligations.HostWritesRegisters := by
  refine fun s => ⟨fun n => rfl, fun f v => ⟨s.writeHdr f v, rfl, Hdr.get_set_same s.hdr f v, ?_, fun g hne => ?_, rfl⟩,
    fun v => rfl, fun v => rfl, fun v => rfl, fun n v => rfl⟩
  · simp [HdrMarks.get_set]
  · exact ⟨Hdr.get_set_other s.hdr v hne, by simp [HdrMarks.get_set, hne]⟩

/-- Settles O14: the offset is compared with 28 first, and inside the buffer the byte decides. -/
theorem hostByteAccesses : Obligations.HostByteAccesses := by
  refine fun s o => ⟨fun b ho => answerRead_of_ok (if_pos ho) s, fun b v ho hread => rdb_of_written ho hread,
    fun b ho hread => rdb_of_unwritten ho hread, fun v => rfl, fun v ho => wrb_ibuf_of_ge ho v s, fun v ho => ?_⟩
  exact ⟨_, wrb_ibuf_of_lt ho v s, fun a => s.ibuf.read_write o.toNat a v, rfl⟩

/-- Settles O15: a read hands over its value and nothing that a read looks at changes. -/
theorem readsHaveNoSideEffect : Obligations.ReadsHaveNoSideEffect := by
  intro a s t ha h
  rcases ha with ⟨r, rfl⟩ | ⟨b, o, rfl⟩
  · obtain ⟨v, hv, rfl⟩ := answerRead_next h
    exact ⟨v, rfl, answerRead_of_ok ((readReg_pushRead s v r).trans hv) _⟩
  · obtain ⟨v, hv, rfl⟩ := answerRead_next h
    exact ⟨v, rfl, answerRead_of_ok ((readByte_pushRead s v b o).trans hv) _⟩

end
